-- ==== Sys2Proof/Word.lean ====
section
/-! DEFINITION. The widths of the machine: words, bytes and register designators. -/

namespace Sys2Proof

/-- A register, memory cell, address or instruction word: 16 bits, unsigned (00_scope.md R6, R9).
`+` on it is addition modulo 2^16. -/
abbrev Word := BitVec 16

/-- A trap vector, console character or byte of an image file. -/
abbrev Byte := BitVec 8

/-- The designator of a general-purpose register R0 to R7 (00_scope.md R12: a 3-bit field names one of
these eight and nothing else). -/
abbrev Reg := Fin 8

/-- R7, the register JSR, JSRR and TRAP write the return address to (10_state.md R31). -/
abbrev Reg.link : Reg := 7

end Sys2Proof
end

