-- ==== Sys2Proof/Syntax.lean ====
section
/-! DEFINITION. The instructions: one constructor per row of spec/opcode_table.json, with the fields of
30_encoding.md R74. A field is as wide as its encoding, so no value of a field is out of range. -/

namespace Sys2Proof

/-- The 19 forms of 30_encoding.md R73. RTI and RES carry their whole instruction word, since the event
they report does (43_system.md R170, R172); every other form carries its named fields only, because the
unnamed bits are ignored (30_encoding.md R80). -/
inductive Instr where
  /-- `BR`: condition mask n, z, p and PCoffset9 (41_control.md R120). -/
  | br (n z p : Bool) (off : BitVec 9)
  /-- `ADD` in register mode: DR, SR1, SR2 (40_operate.md R100). -/
  | addReg (dr sr1 sr2 : Reg)
  /-- `ADD` in immediate mode: DR, SR1, imm5 (40_operate.md R102). -/
  | addImm (dr sr1 : Reg) (imm : BitVec 5)
  /-- `LD`: DR, PCoffset9 (42_load_store.md R140). -/
  | ld (dr : Reg) (off : BitVec 9)
  /-- `ST`: SR, PCoffset9 (42_load_store.md R148). -/
  | st (sr : Reg) (off : BitVec 9)
  /-- `JSR`: PCoffset11 (41_control.md R126). -/
  | jsr (off : BitVec 11)
  /-- `JSRR`: BaseR (41_control.md R128). -/
  | jsrr (base : Reg)
  /-- `AND` in register mode: DR, SR1, SR2 (40_operate.md R104). -/
  | andReg (dr sr1 sr2 : Reg)
  /-- `AND` in immediate mode: DR, SR1, imm5 (40_operate.md R106). -/
  | andImm (dr sr1 : Reg) (imm : BitVec 5)
  /-- `LDR`: DR, BaseR, offset6 (42_load_store.md R144). -/
  | ldr (dr base : Reg) (off : BitVec 6)
  /-- `STR`: SR, BaseR, offset6 (42_load_store.md R152). -/
  | str (sr base : Reg) (off : BitVec 6)
  /-- `RTI`, not executed: its whole word (43_system.md R170). -/
  | rti (ir : Word)
  /-- `NOT`: DR, SR (40_operate.md R108). -/
  | not (dr sr : Reg)
  /-- `LDI`: DR, PCoffset9 (42_load_store.md R142). -/
  | ldi (dr : Reg) (off : BitVec 9)
  /-- `STI`: SR, PCoffset9 (42_load_store.md R150). -/
  | sti (sr : Reg) (off : BitVec 9)
  /-- `JMP`: BaseR; RET is `jmp 7` (41_control.md R124, R125). -/
  | jmp (base : Reg)
  /-- `RES`, not executed: its whole word (43_system.md R172). -/
  | res (ir : Word)
  /-- `LEA`: DR, PCoffset9 (42_load_store.md R146). -/
  | lea (dr : Reg) (off : BitVec 9)
  /-- `TRAP`: trapvect8 (43_system.md R160). -/
  | trap (vect : Byte)
  deriving DecidableEq, Repr

/-- The 16 operation tags, in the order 30_encoding.md R72 lists them. -/
inductive Opcode where
  | br | add | ld | st | jsr | and | ldr | str | rti | not | ldi | sti | jmp | res | lea | trap
  deriving DecidableEq, Repr

/-- The operation tag of a form (30_encoding.md R72). -/
def Instr.opcode : Instr → Opcode
  | .br _ _ _ _ => .br
  | .addReg _ _ _ => .add
  | .addImm _ _ _ => .add
  | .ld _ _ => .ld
  | .st _ _ => .st
  | .jsr _ => .jsr
  | .jsrr _ => .jsr
  | .andReg _ _ _ => .and
  | .andImm _ _ _ => .and
  | .ldr _ _ _ => .ldr
  | .str _ _ _ => .str
  | .rti _ => .rti
  | .not _ _ => .not
  | .ldi _ _ => .ldi
  | .sti _ _ => .sti
  | .jmp _ => .jmp
  | .res _ => .res
  | .lea _ _ => .lea
  | .trap _ => .trap

/-- The 19 forms by name, one per row of spec/opcode_table.json (30_encoding.md R73). -/
inductive Form where
  | br | addReg | addImm | ld | st | jsr | jsrr | andReg | andImm | ldr | str | rti | not | ldi | sti
  | jmp | res | lea | trap
  deriving DecidableEq, Repr

/-- The form of an instruction. -/
def Instr.form : Instr → Form
  | .br _ _ _ _ => .br
  | .addReg _ _ _ => .addReg
  | .addImm _ _ _ => .addImm
  | .ld _ _ => .ld
  | .st _ _ => .st
  | .jsr _ => .jsr
  | .jsrr _ => .jsrr
  | .andReg _ _ _ => .andReg
  | .andImm _ _ _ => .andImm
  | .ldr _ _ _ => .ldr
  | .str _ _ _ => .str
  | .rti _ => .rti
  | .not _ _ => .not
  | .ldi _ _ => .ldi
  | .sti _ _ => .sti
  | .jmp _ => .jmp
  | .res _ => .res
  | .lea _ _ => .lea
  | .trap _ => .trap

end Sys2Proof
end

