-- ==== Sys2Proof/WellFormed.lean ====
section
/-! DEFINITION. Which instructions are well formed. Every field but one is exactly as wide as its
encoding, so only the words that RTI and RES carry can be wrong: each must be a word of that opcode. -/

namespace Sys2Proof

/-- The four opcode bits of an instruction word (30_encoding.md R71). -/
def opcodeBits (w : Word) : BitVec 4 := w.extractLsb' 12 4

/-- Well-formedness: the word an RTI carries has opcode 0x8 and the word a RES carries opcode 0xD
(30_encoding.md R72). -/
def Instr.wellFormed : Instr → Bool
  | .rti ir => opcodeBits ir == 0x8#4
  | .res ir => opcodeBits ir == 0xD#4
  | .br _ _ _ _ | .addReg _ _ _ | .addImm _ _ _ | .ld _ _ | .st _ _ | .jsr _ | .jsrr _
  | .andReg _ _ _ | .andImm _ _ _ | .ldr _ _ _ | .str _ _ _ | .not _ _ | .ldi _ _ | .sti _ _
  | .jmp _ | .lea _ _ | .trap _ => true

end Sys2Proof
end

