-- ==== Sys2Proof/Decode.lean ====
section
/-! DEFINITION. The decoder (30_encoding.md R71 to R91), total on every word, and after it the encoder
written from the same table of formats (30_encoding.md R73). -/

namespace Sys2Proof

/-- The tags in the order of 30_encoding.md R72, where a tag's opcode number is its position. The numbers
are the spec's decision D1 (log 1). -/
def opcodeList : Vector Opcode 16 :=
  #v[.br, .add, .ld, .st, .jsr, .and, .ldr, .str, .rti, .not, .ldi, .sti, .jmp, .res, .lea, .trap]

/-- The tag a 4-bit opcode stands for (30_encoding.md R71, R72); none is illegal (R81). -/
def Opcode.ofBits (b : BitVec 4) : Opcode := opcodeList[b.toNat]

/-- The 3-bit register field of a word that starts at bit `lo` (00_scope.md R12). -/
def regField (w : Word) (lo : Nat) : Reg := (w.extractLsb' lo 3).toFin

/-- DR, and SR of the stores: IR[11:9] (30_encoding.md R74; positions: log 2). -/
def fieldDR (w : Word) : Reg := regField w 9

/-- SR1, SR of NOT, and BaseR: IR[8:6] (30_encoding.md R74). -/
def fieldSR1 (w : Word) : Reg := regField w 6

/-- SR2: IR[2:0] (30_encoding.md R74). -/
def fieldSR2 (w : Word) : Reg := regField w 0

/-- imm5: IR[4:0]. -/
def fieldImm5 (w : Word) : BitVec 5 := w.extractLsb' 0 5

/-- offset6: IR[5:0]. -/
def fieldOffset6 (w : Word) : BitVec 6 := w.extractLsb' 0 6

/-- PCoffset9: IR[8:0]. -/
def fieldPCoffset9 (w : Word) : BitVec 9 := w.extractLsb' 0 9

/-- PCoffset11: IR[10:0]. -/
def fieldPCoffset11 (w : Word) : BitVec 11 := w.extractLsb' 0 11

/-- trapvect8: IR[7:0]. -/
def fieldTrapvect8 (w : Word) : Byte := w.extractLsb' 0 8

/-- The decoder of 30_encoding.md R91. IR[5] tells the modes of ADD and AND apart (R78), IR[11] JSR from
JSRR (R79); bits no field names are not looked at (R80, log 4). -/
def decode (w : Word) : Instr :=
  match Opcode.ofBits (opcodeBits w) with
  | .br => .br (w.getLsbD 11) (w.getLsbD 10) (w.getLsbD 9) (fieldPCoffset9 w)
  | .add =>
    if w.getLsbD 5 then .addImm (fieldDR w) (fieldSR1 w) (fieldImm5 w)
    else .addReg (fieldDR w) (fieldSR1 w) (fieldSR2 w)
  | .ld => .ld (fieldDR w) (fieldPCoffset9 w)
  | .st => .st (fieldDR w) (fieldPCoffset9 w)
  | .jsr => if w.getLsbD 11 then .jsr (fieldPCoffset11 w) else .jsrr (fieldSR1 w)
  | .and =>
    if w.getLsbD 5 then .andImm (fieldDR w) (fieldSR1 w) (fieldImm5 w)
    else .andReg (fieldDR w) (fieldSR1 w) (fieldSR2 w)
  | .ldr => .ldr (fieldDR w) (fieldSR1 w) (fieldOffset6 w)
  | .str => .str (fieldDR w) (fieldSR1 w) (fieldOffset6 w)
  | .rti => .rti w
  | .not => .not (fieldDR w) (fieldSR1 w)
  | .ldi => .ldi (fieldDR w) (fieldPCoffset9 w)
  | .sti => .sti (fieldDR w) (fieldPCoffset9 w)
  | .jmp => .jmp (fieldSR1 w)
  | .res => .res w
  | .lea => .lea (fieldDR w) (fieldPCoffset9 w)
  | .trap => .trap (fieldTrapvect8 w)

/-- The 16-bit word held by the low `nbits` bits of `w`, the bits above them zero. -/
def tableWord (nbits w : Nat) : Word := BitVec.ofNat 16 (w % 2 ^ nbits)

/-- The decoder's reading of an instruction of `nbits` bits numbered as spec/opcode_table.json numbers
them. Every instruction is one 16-bit word (30_encoding.md R70), so an instruction of more bits is none of
this machine's. -/
def decodeTableWord (nbits w : Nat) : Option Instr :=
  if nbits ≤ 16 then some (decode (tableWord nbits w)) else none

/-- A register designator as its 3-bit field. -/
def regBits (r : Reg) : BitVec 3 := BitVec.ofFin r

/-- A field put at its place in a word: its bit 0 at bit `lo`. -/
def place {n : Nat} (x : BitVec n) (lo : Nat) : Word := x.setWidth 16 <<< lo

/-- The encoder: each field at the position 30_encoding.md R73 and R74 give it, the ignored bits as an
assembler emits them (R86: NOT's IR[5:0] ones, all others zero). -/
def encode : Instr → Word
  | .br n z p off =>
    place 0x0#4 12 ||| place (BitVec.ofBool n) 11 ||| place (BitVec.ofBool z) 10 |||
      place (BitVec.ofBool p) 9 ||| place off 0
  | .addReg dr sr1 sr2 =>
    place 0x1#4 12 ||| place (regBits dr) 9 ||| place (regBits sr1) 6 ||| place (regBits sr2) 0
  | .addImm dr sr1 imm =>
    place 0x1#4 12 ||| place (regBits dr) 9 ||| place (regBits sr1) 6 ||| place 1#1 5 ||| place imm 0
  | .ld dr off => place 0x2#4 12 ||| place (regBits dr) 9 ||| place off 0
  | .st sr off => place 0x3#4 12 ||| place (regBits sr) 9 ||| place off 0
  | .jsr off => place 0x4#4 12 ||| place 1#1 11 ||| place off 0
  | .jsrr base => place 0x4#4 12 ||| place (regBits base) 6
  | .andReg dr sr1 sr2 =>
    place 0x5#4 12 ||| place (regBits dr) 9 ||| place (regBits sr1) 6 ||| place (regBits sr2) 0
  | .andImm dr sr1 imm =>
    place 0x5#4 12 ||| place (regBits dr) 9 ||| place (regBits sr1) 6 ||| place 1#1 5 ||| place imm 0
  | .ldr dr base off => place 0x6#4 12 ||| place (regBits dr) 9 ||| place (regBits base) 6 ||| place off 0
  | .str sr base off => place 0x7#4 12 ||| place (regBits sr) 9 ||| place (regBits base) 6 ||| place off 0
  | .rti ir => ir
  | .not dr sr => place 0x9#4 12 ||| place (regBits dr) 9 ||| place (regBits sr) 6 ||| place 0x3F#6 0
  | .ldi dr off => place 0xA#4 12 ||| place (regBits dr) 9 ||| place off 0
  | .sti sr off => place 0xB#4 12 ||| place (regBits sr) 9 ||| place off 0
  | .jmp base => place 0xC#4 12 ||| place (regBits base) 6
  | .res ir => ir
  | .lea dr off => place 0xE#4 12 ||| place (regBits dr) 9 ||| place off 0
  | .trap vect => place 0xF#4 12 ||| place vect 0

/-- The bits of a form's words that carry its opcode, its mode flag and its named fields; the others are
the bits marked x in 30_encoding.md R73. -/
def Instr.namedBits : Instr → Word
  | .br _ _ _ _ | .ld _ _ | .st _ _ | .ldr _ _ _ | .str _ _ _ | .ldi _ _ | .sti _ _ | .lea _ _
  | .addImm _ _ _ | .andImm _ _ _ | .jsr _ => 0xFFFF
  | .addReg _ _ _ | .andReg _ _ _ => 0xFFE7
  | .jsrr _ => 0xF9C0
  | .not _ _ => 0xFFC0
  | .jmp _ => 0xF1C0
  | .trap _ => 0xF0FF
  | .rti _ | .res _ => 0xF000

/-- A row of spec/opcode_table.json: a word belongs to `form` when its bits under `mask` are `bits`. -/
structure FormatRow where
  form : Form
  mask : Word
  bits : Word
  deriving DecidableEq, Repr

/-- The match and mask columns of spec/opcode_table.json, row by row. `decode` is not written with it: that
every word matches exactly the row it decodes to is a statement about both (30_encoding.md R81). -/
def instructionFormats : List FormatRow :=
  [ ⟨.br, 0xF000, 0x0000⟩, ⟨.addReg, 0xF020, 0x1000⟩, ⟨.addImm, 0xF020, 0x1020⟩, ⟨.ld, 0xF000, 0x2000⟩,
    ⟨.st, 0xF000, 0x3000⟩, ⟨.jsr, 0xF800, 0x4800⟩, ⟨.jsrr, 0xF800, 0x4000⟩, ⟨.andReg, 0xF020, 0x5000⟩,
    ⟨.andImm, 0xF020, 0x5020⟩, ⟨.ldr, 0xF000, 0x6000⟩, ⟨.str, 0xF000, 0x7000⟩, ⟨.rti, 0xF000, 0x8000⟩,
    ⟨.not, 0xF000, 0x9000⟩, ⟨.ldi, 0xF000, 0xA000⟩, ⟨.sti, 0xF000, 0xB000⟩, ⟨.jmp, 0xF000, 0xC000⟩,
    ⟨.res, 0xF000, 0xD000⟩, ⟨.lea, 0xF000, 0xE000⟩, ⟨.trap, 0xF000, 0xF000⟩ ]

end Sys2Proof
end

