-- ==== Sys2Proof/Config.lean ====
section
/-! DEFINITION. What the spec leaves to the implementation: the named parameters of 00_scope.md R7, the
free values, and the fixed reset constants. -/

namespace Sys2Proof

/-- The parameters of 00_scope.md R7 that stay fixed while the machine runs. (`gpr_reset` and `mem_init`,
which only reset reads, are arguments of `Machine.powerOn`.) They stand in the state, as `State.params`,
and no transition changes them, so a statement about every state covers every value of them (log 11). -/
structure Params where
  /-- `kbd_mmio`: the addresses of the keyboard status and data words, if wired (20_memory.md R59). -/
  kbdMmio : Option (Word × Word)
  /-- `trap_input_sets_flags`: whether GETC and IN also derive COND from R0 (60_exceptions.md R217). -/
  trapInputSetsFlags : Bool
  /-- `jsrr_link_first`: whether JSRR writes R7 before it reads BaseR (41_control.md R128). -/
  jsrrLinkFirst : Bool
  deriving DecidableEq, Repr

/-- FREE VALUE (log 9): the spec takes no default for `trap_input_sets_flags` (00_scope.md R7: "none:
either"). -/
opaque Config.trapInputSetsFlags : Bool

/-- FREE VALUE (log 8): what the host answers to the n-th read of a wired keyboard word (20_memory.md R59:
"a value drawn from the host, with no law on it"). -/
opaque Config.hostRead : Nat → Word

/-- The parameters at the defaults of 00_scope.md R7: no keyboard pair, the source's JSRR order. -/
def Params.default : Params :=
  { kbdMmio := none, trapInputSetsFlags := Config.trapInputSetsFlags, jsrrLinkFirst := true }

/-- PC after reset (70_reset_and_hazards.md R240). -/
def Config.resetPc : Word := 0x3000

/-- COND after reset: ZRO (70_reset_and_hazards.md R240). -/
def Config.resetCond : Word := 0x0002

end Sys2Proof
end

