-- ==== Sys2Proof/Machine/State.lean ====
section
/-! DEFINITION. The machine's state as plain data, what stops it, and the state after reset. -/

namespace Sys2Proof.Machine

/-- Memory as (address, word) pairs (20_memory.md R50: a cell is one 16-bit word, there are no bytes in it,
log 7). `Memory.wf` in Ops.lean is its canonical form; an unlisted address reads as `Memory.unlisted`. -/
abbrev Memory := List (Nat × Word)

/-- The run state of 10_state.md R42. TRAP_PENDING holds the vector of the pending TRAP_REQ, which the
dispatcher is keyed by (60_exceptions.md R215) and ABORT reports (R213). -/
inductive RunState where
  | running
  | trapPending (vect : Byte)
  | halted
  | aborted
  deriving DecidableEq, Repr

/-- The events of the core's event output (60_exceptions.md R200). -/
inductive Event where
  | diagRti (addr word : Word)
  | diagRes (addr word : Word)
  | trapReq (vect : Byte)
  | halted
  | fatalTrapVector (vect : Byte)
  deriving DecidableEq, Repr

/-- What the host can do to the core, one action at a time and never inside a step (60_exceptions.md R225,
92_eei_decisions.md D6). -/
inductive HostInput where
  /-- STEP: request one core step; held while a TRAP is pending (92_eei_decisions.md D28). -/
  | step
  /-- RESET (70_reset_and_hazards.md R240). -/
  | reset
  /-- RESUME a pending TRAP (60_exceptions.md R211). -/
  | resume
  /-- HALT at a pending TRAP (60_exceptions.md R212). -/
  | halt
  /-- ABORT a pending TRAP (60_exceptions.md R213). -/
  | abort
  /-- The dispatcher serves the pending TRAP (60_exceptions.md R215); `c` is the character the console
  gives, read by GETC and IN only. -/
  | serve (c : Byte)
  /-- Read a cell of the register file (60_exceptions.md R226). -/
  | readReg (index : Nat)
  /-- Write a cell of the register file (60_exceptions.md R226). -/
  | writeReg (index : Nat) (v : Word)
  /-- Read a word through the host memory port (20_memory.md R67). -/
  | readMem (addr : Nat)
  /-- Write a word through the host memory port (20_memory.md R67). -/
  | writeMem (addr : Nat) (v : Word)
  /-- Load a program image (70_reset_and_hazards.md R243 to R247). -/
  | load (image : List Byte)
  deriving DecidableEq, Repr

/-- What the host puts out or is given: not core state. -/
inductive HostOutput where
  /-- A byte on the console (60_exceptions.md R218 to R221). -/
  | console (c : Byte)
  /-- IN's prompt, whose text is the host's (60_exceptions.md R220). -/
  | prompt
  /-- HALT's notice, whose text is the host's (60_exceptions.md R222). -/
  | haltNotice
  /-- The loader reports a load failure (70_reset_and_hazards.md R246). -/
  | loadFailure
  /-- The register-file port's answer to a read (60_exceptions.md R226). -/
  | regValue (index : Nat) (v : Word)
  /-- The memory port's answer to a read (20_memory.md R67). -/
  | memValue (addr : Nat) (v : Word)
  deriving DecidableEq, Repr

/-- The whole state. `regs`, `pc`, `cond`, `mem` and `run` are the spec's (10_state.md); `params` are the
spec's parameters (00_scope.md R7), which never change; the last five are the model's own. -/
structure State where
  /-- R0 to R7 (10_state.md R30). -/
  regs : Vector Word 8
  /-- The program counter (10_state.md R33). -/
  pc : Word
  /-- The condition-flag register, all 16 bits (10_state.md R35). -/
  cond : Word
  /-- Memory (20_memory.md R50). -/
  mem : Memory
  /-- The run state (10_state.md R42). -/
  run : RunState
  /-- The parameters (log 11). -/
  params : Params
  /-- How many keyboard reads there have been, so that each is a fresh free value (log 8). -/
  draws : Nat
  /-- Whether a step has been executed since reset: the loader writes only before the first one
  (70_reset_and_hazards.md R243; log 18). -/
  stepped : Bool
  /-- The host's pending actions, oldest first; none pending means STEP requests (log 12). -/
  inputs : List HostInput
  /-- The event output so far, oldest first (log 15). -/
  events : List Event
  /-- The host's output so far, oldest first (log 16). -/
  output : List HostOutput
  deriving DecidableEq, Repr

/-- Why the machine stops with a fault. No instruction raises one (60_exceptions.md R201). -/
inductive Fault where
  /-- Raised by `step` when the core rests in ABORTED and no host action is pending (60_exceptions.md R214:
  "a model treats ABORTED as a fault, never as a successful end"; log 13). Safe: the machine would do
  nothing there. -/
  | aborted
  deriving DecidableEq, Repr

/-- Why the model gives no next state. -/
inductive Refusal where
  /-- An instruction with no meaning yet: raised by `exec` only, safe. No arm uses it. -/
  | notModelled (mnemonic : String)
  /-- A store to a wired keyboard word (20_memory.md R52, R59: "refuse"): raised by `State.writeWord`, so by
  ST, STI, STR, the memory port and the loader. Only when the parameter kbd_mmio wires the pair. Safe. -/
  | keyboardStore (addr : Word)
  /-- A RESUME, HALT, ABORT or service when no TRAP is pending (60_exceptions.md R205: accepted only in
  TRAP_PENDING; log 14): raised by the host actions. Safe. -/
  | signalNotAccepted
  /-- A register-file port index outside 0 to 9 (60_exceptions.md R226: "refused"): raised by the port.
  Safe. -/
  | registerIndex (index : Nat)
  /-- A load after a step has been executed since reset (70_reset_and_hazards.md R243: "only before the first
  step"; log 18): raised by the loader. Safe. -/
  | loadAfterFirstStep
  deriving DecidableEq, Repr

/-- What a transition of the machine answers. -/
abbrev Result := Host.Outcome State Fault Refusal

/-- The machine right after power-on reset (10_state.md R44): PC = 0x3000, COND = ZRO, RUNNING. R0 to R7
are zero (DESIGN CHOICE, log 5) and no memory word is listed (log 6), where the spec takes parameters;
`powerOn` gives this state for every value of them. -/
def State.reset : State where
  regs := #v[0, 0, 0, 0, 0, 0, 0, 0]
  pc := Config.resetPc
  cond := Config.resetCond
  mem := []
  run := .running
  params := Params.default
  draws := 0
  stepped := false
  inputs := []
  events := []
  output := []

end Sys2Proof.Machine
end

