-- ==== Sys2Proof/Machine/Ops.lean ====
section
/-! DEFINITION. The named operations over registers, memory, the event output and the run state that every
meaning is written with, taking a TRAP and returning from one among them. -/

namespace Sys2Proof.Machine

/-! ### Memory as data -/

/-- What an address with no entry reads as. DESIGN CHOICE (log 6): any function from addresses to words is
still some memory, since an entry can hold any other word. -/
def Memory.unlisted : Word := 0

/-- The word at an address (20_memory.md R51). -/
def Memory.readAt : Memory → Nat → Word
  | [], _ => Memory.unlisted
  | (k, v) :: rest, a => if k = a then v else Memory.readAt rest a

/-- The word at a 16-bit address. -/
def Memory.read (m : Memory) (a : Word) : Word := m.readAt a.toNat

/-- Put an entry in its place among entries of rising address. -/
def Memory.insert : Memory → Nat → Word → Memory
  | [], a, v => [(a, v)]
  | (k, x) :: rest, a, v =>
    if a < k then (a, v) :: (k, x) :: rest else (k, x) :: Memory.insert rest a v

/-- Memory with the word at an address replaced and every other word kept (20_memory.md R52), in canonical
form: a word equal to what an unlisted address reads as is not listed. -/
def Memory.write (m : Memory) (a : Word) (v : Word) : Memory :=
  let others := m.filter fun e => e.1 != a.toNat
  if v = Memory.unlisted then others else Memory.insert others a.toNat v

/-- The canonical form: addresses strictly rising and inside the 65536 words (20_memory.md R50), no entry
equal to what an unlisted address reads as. Equal memories are then equal lists. -/
abbrev Memory.wf (m : Memory) : Prop :=
  m.Pairwise (fun x y => x.1 < y.1) ∧ ∀ e ∈ m, e.1 < 65536 ∧ e.2 ≠ Memory.unlisted

/-- The memory that holds `f a` at every address `a` below a bound. -/
def Memory.ofFnBelow (f : Word → Word) : Nat → Memory
  | 0 => []
  | n + 1 => (Memory.ofFnBelow f n).write (BitVec.ofNat 16 n) (f (BitVec.ofNat 16 n))

/-- The memory that holds `f a` at every address `a` (10_state.md R44, the parameter `mem_init`). -/
@[irreducible] def Memory.ofFn (f : Word → Word) : Memory := Memory.ofFnBelow f 65536

/-! ### Registers and the plain updates -/

/-- `R[r]` (10_state.md R30). -/
def State.getReg (s : State) (r : Reg) : Word := s.regs[r.val]

/-- `R[r] <- v` (10_state.md R30): nothing else changes. -/
def State.setReg (s : State) (r : Reg) (v : Word) : State := { s with regs := s.regs.set r.val v }

/-- `PC <- v` (10_state.md R33). -/
def State.setPc (s : State) (v : Word) : State := { s with pc := v }

/-- `COND <- v`, all 16 bits (10_state.md R35). -/
def State.setCond (s : State) (v : Word) : State := { s with cond := v }

/-- Replace memory. -/
def State.setMem (s : State) (m : Memory) : State := { s with mem := m }

/-- Change the run state (10_state.md R42). -/
def State.setRun (s : State) (r : RunState) : State := { s with run := r }

/-- Count one more keyboard read (log 8). -/
def State.countDraw (s : State) : State := { s with draws := s.draws + 1 }

/-- Note whether a step has been executed since reset (log 18). -/
def State.setStepped (s : State) (b : Bool) : State := { s with stepped := b }

/-- Replace the host's pending actions (log 12). -/
def State.setInputs (s : State) (is : List HostInput) : State := { s with inputs := is }

/-- `signal E(info)`: report an event on the event output (00_scope.md R11, 60_exceptions.md R200). -/
def State.signal (s : State) (e : Event) : State := { s with events := s.events ++ [e] }

/-- Add to the host's output (log 16). -/
def State.emit (s : State) (os : List HostOutput) : State := { s with output := s.output ++ os }

/-- The code 60_exceptions.md R200 gives each event. -/
def Event.code : Event → Nat
  | .diagRti _ _ => 1
  | .diagRes _ _ => 2
  | .trapReq _ => 3
  | .halted => 4
  | .fatalTrapVector _ => 5

/-! ### MemRead and MemWrite -/

/-- Whether an address is one of the wired keyboard words (20_memory.md R51). -/
def State.isKeyboard (s : State) (a : Word) : Bool :=
  match s.params.kbdMmio with
  | none => false
  | some (status, data) => a == status || a == data

/-- The value of `MemRead(a)` (20_memory.md R51): memory's word, or the host's answer for a wired keyboard
word. -/
def State.readWord (s : State) (a : Word) : Word :=
  if s.isKeyboard a then Config.hostRead s.draws else s.mem.read a

/-- The state after `MemRead(a)`: a read changes nothing (20_memory.md R51), but that a keyboard read takes
a fresh answer (log 8). -/
def State.afterRead (s : State) (a : Word) : State := if s.isKeyboard a then s.countDraw else s

/-- `MemWrite(a, v)` (20_memory.md R52): one word changes, and a wired keyboard word refuses. -/
def State.writeWord (s : State) (a : Word) (v : Word) : Result :=
  if s.isKeyboard a then .refused (.keyboardStore a) else .next (s.setMem (s.mem.write a v))

/-- Go on from a next state; a fault or a refusal ends the chain. -/
def Result.andThen (r : Result) (f : State → Result) : Result :=
  match r with
  | .next s => f s
  | .fault e => .fault e
  | .refused e => .refused e

/-! ### Taking a TRAP and returning from it -/

/-- Trap entry (60_exceptions.md R206, 43_system.md R160): R7 saves the return address, which PC holds and
keeps; the run state becomes TRAP_PENDING; the vector goes out as TRAP_REQ. Nothing else is saved, masked or
changed. -/
def State.enterTrap (s : State) (vect : Byte) : State :=
  ((s.setReg Reg.link s.pc).setRun (.trapPending vect)).signal (.trapReq vect)

/-- The return from a TRAP, RESUME (60_exceptions.md R208, R211): the run state becomes RUNNING and nothing
is restored. -/
def State.resumeTrap (s : State) : State := s.setRun .running

/-! ### Reset -/

/-- RESET, in any run state (70_reset_and_hazards.md R240): PC, COND and the run state; R0 to R7 and memory
keep what they hold. The boot order of R242 begins again, so that images may be loaded (log 18). -/
def State.resetSignal (s : State) : State :=
  (((s.setPc Config.resetPc).setCond Config.resetCond).setRun .running).setStepped false

/-- The machine at power-on for every value of the parameters of 00_scope.md R7, `gpr_reset` and `mem_init`
among them (10_state.md R44). -/
def powerOn (gprReset : Reg → Word) (memInit : Word → Word) (p : Params) : State where
  regs := Vector.ofFn gprReset
  pc := Config.resetPc
  cond := Config.resetCond
  mem := Memory.ofFn memInit
  run := .running
  params := p
  draws := 0
  stepped := false
  inputs := []
  events := []
  output := []

/-! ### The host's pending actions -/

/-- The STEP requests that are held: those made before the host's answer to a pending TRAP (10_state.md R43,
92_eei_decisions.md D28; log 13). In every other run state none is held. -/
def State.held (s : State) : List HostInput :=
  match s.run with
  | .trapPending _ => s.inputs.takeWhile (· == .step)
  | .running | .halted | .aborted => []

/-- The pending actions that are not held, oldest first: the next one to happen is its head. -/
def State.due (s : State) : List HostInput :=
  match s.run with
  | .trapPending _ => s.inputs.dropWhile (· == .step)
  | .running | .halted | .aborted => s.inputs

/-! ### The fetch -/

/-- `IR <- MemRead(PC)` (30_encoding.md R90). -/
def State.fetchWord (s : State) : Word := s.readWord s.pc

/-- The state after the fetch: PC is already incremented when the instruction executes (30_encoding.md R90,
10_state.md R33), and the step is no longer the first one to come (log 18). -/
def State.afterFetch (s : State) : State := ((s.afterRead s.pc).setPc (s.pc + 1)).setStepped true

end Sys2Proof.Machine
end

