-- ==== Sys2Proof/Machine/Flags.lean ====
section
/-! DEFINITION. The condition flags: deriving COND from a value, writing a destination register together
with the flags, and BR's test. -/

namespace Sys2Proof.Machine

/-- COND with NEG alone set (10_state.md R35; the placement is the spec's decision D3, log 3). -/
def condNEG : Word := 0x0004

/-- COND with ZRO alone set. -/
def condZRO : Word := 0x0002

/-- COND with POS alone set. -/
def condPOS : Word := 0x0001

/-- The COND that `setcc(v)` writes (10_state.md R36). -/
def condOf (v : Word) : Word :=
  if v = 0x0000 then condZRO else if v.getLsbD 15 then condNEG else condPOS

/-- `setcc(v)` (10_state.md R36): the whole of COND is written. -/
def State.setcc (s : State) (v : Word) : State := s.setCond (condOf v)

/-- `R[DR] <- v; setcc(v)`: how every flag-affecting instruction writes its result (10_state.md R37). -/
def State.writeDest (s : State) (dr : Reg) (v : Word) : State := (s.setReg dr v).setcc v

/-- BR's condition mask as the three bits IR[11:9] (30_encoding.md R75). -/
def condMask (n z p : Bool) : BitVec 3 := BitVec.ofBool n ++ BitVec.ofBool z ++ BitVec.ofBool p

/-- BR's test `(IR[11:9] & COND[2:0]) != 0` (41_control.md R120), on COND as it stands (R121). -/
def State.branchTaken (s : State) (n z p : Bool) : Bool :=
  condMask n z p &&& s.cond.extractLsb' 0 3 != 0

end Sys2Proof.Machine
end

