-- ==== Sys2Proof/Machine/Operands.lean ====
section
/-! DEFINITION. Every operand form of 30_encoding.md R76 and R77 and every effective address of
42_load_store.md R139. All additions wrap modulo 2^16 (00_scope.md R9). -/

namespace Sys2Proof.Machine

/-- The sign-extend primitive `sext_n(x)` of 00_scope.md R10, as the source writes it: OR the mask
`0xFFFF << n` in when bit n-1 is set. -/
def sext (n : Nat) (x : Word) : Word := if x.getLsbD (n - 1) then x ||| (0xFFFF#16 <<< n) else x

/-- `zext_16(x)` of 00_scope.md R10: x padded with zeros to 16 bits. -/
abbrev zext16 {n : Nat} (x : BitVec n) : Word := x.setWidth 16

/-- imm5 as an operand: `sext_5(IR[4:0])` (30_encoding.md R76). -/
def immOperand (imm : BitVec 5) : Word := sext 5 (zext16 imm)

/-- offset6 as an operand: `sext_6(IR[5:0])`. -/
def offset6Operand (off : BitVec 6) : Word := sext 6 (zext16 off)

/-- PCoffset9 as an operand: `sext_9(IR[8:0])`. -/
def offset9Operand (off : BitVec 9) : Word := sext 9 (zext16 off)

/-- PCoffset11 as an operand: `sext_11(IR[10:0])`. -/
def offset11Operand (off : BitVec 11) : Word := sext 11 (zext16 off)

/-- The PC-relative address `PC + sext_9(PCoffset9)` (42_load_store.md R139), with the PC already
incremented. -/
def State.pcRelative9 (s : State) (off : BitVec 9) : Word := s.pc + offset9Operand off

/-- The PC-relative address `PC + sext_11(PCoffset11)` of JSR (41_control.md R126). -/
def State.pcRelative11 (s : State) (off : BitVec 11) : Word := s.pc + offset11Operand off

/-- The base-plus-offset address `R[BaseR] + sext_6(offset6)` (42_load_store.md R139). -/
def State.baseOffset (s : State) (base : Reg) (off : BitVec 6) : Word :=
  s.getReg base + offset6Operand off

/-- The indirect address `MemRead(PC + sext_9(PCoffset9))` of LDI and STI (42_load_store.md R139). -/
def State.indirect (s : State) (off : BitVec 9) : Word := s.readWord (s.pcRelative9 off)

/-- The state after the pointer of an indirect address has been read. -/
def State.afterPointer (s : State) (off : BitVec 9) : State := s.afterRead (s.pcRelative9 off)

end Sys2Proof.Machine
end

