-- ==== Sys2Proof/Machine/Control.lean ====
section
/-! DEFINITION. Control transfer: BR, JMP (RET), JSR and JSRR (41_control.md). PC already holds the
instruction's address plus 1. -/

namespace Sys2Proof.Machine

/-- BR (41_control.md R120, R121). -/
def execBr (n z p : Bool) (off : BitVec 9) (s : State) : Result :=
  .next (if s.branchTaken n z p then s.setPc (s.pcRelative9 off) else s)

/-- JMP, and RET when BaseR is R7 (41_control.md R124, R125). -/
def execJmp (base : Reg) (s : State) : Result := .next (s.setPc (s.getReg base))

/-- JSR (41_control.md R126). -/
def execJsr (off : BitVec 11) (s : State) : Result :=
  .next ((s.setReg Reg.link s.pc).setPc (s.pcRelative11 off))

/-- JSRR (41_control.md R128): the parameter `jsrr_link_first` says whether BaseR is read after or before
the write of R7. -/
def execJsrr (base : Reg) (s : State) : Result :=
  let linked := s.setReg Reg.link s.pc
  .next (linked.setPc (if s.params.jsrrLinkFirst then linked.getReg base else s.getReg base))

end Sys2Proof.Machine
end

