-- ==== Sys2Proof/Machine/LoadStore.lean ====
section
/-! DEFINITION. Loads and stores (42_load_store.md). PC already holds the instruction's address plus 1; every
access is one word through MemRead or MemWrite. -/

namespace Sys2Proof.Machine

/-- `R[DR] <- MemRead(a); setcc`: how every load ends. -/
def State.loadFrom (s : State) (dr : Reg) (a : Word) : State :=
  (s.afterRead a).writeDest dr (s.readWord a)

/-- LD (42_load_store.md R140). -/
def execLd (dr : Reg) (off : BitVec 9) (s : State) : Result :=
  .next (s.loadFrom dr (s.pcRelative9 off))

/-- LDI (42_load_store.md R142): the pointer is read, then the data. -/
def execLdi (dr : Reg) (off : BitVec 9) (s : State) : Result :=
  .next ((s.afterPointer off).loadFrom dr (s.indirect off))

/-- LDR (42_load_store.md R144). -/
def execLdr (dr base : Reg) (off : BitVec 6) (s : State) : Result :=
  .next (s.loadFrom dr (s.baseOffset base off))

/-- LEA (42_load_store.md R146): no memory access. -/
def execLea (dr : Reg) (off : BitVec 9) (s : State) : Result :=
  .next (s.writeDest dr (s.pcRelative9 off))

/-- ST (42_load_store.md R148). -/
def execSt (sr : Reg) (off : BitVec 9) (s : State) : Result :=
  s.writeWord (s.pcRelative9 off) (s.getReg sr)

/-- STI (42_load_store.md R150): the pointer is read, then SR is stored through it. -/
def execSti (sr : Reg) (off : BitVec 9) (s : State) : Result :=
  (s.afterPointer off).writeWord (s.indirect off) (s.getReg sr)

/-- STR (42_load_store.md R152). -/
def execStr (sr base : Reg) (off : BitVec 6) (s : State) : Result :=
  s.writeWord (s.baseOffset base off) (s.getReg sr)

end Sys2Proof.Machine
end

