-- ==== Sys2Proof/Machine/Operate.lean ====
section
/-! DEFINITION. The operate instructions ADD, AND and NOT (40_operate.md). In every meaning PC already holds
the instruction's address plus 1. -/

namespace Sys2Proof.Machine

/-- ADD, register mode (40_operate.md R100). -/
def execAddReg (dr sr1 sr2 : Reg) (s : State) : Result :=
  .next (s.writeDest dr (s.getReg sr1 + s.getReg sr2))

/-- ADD, immediate mode (40_operate.md R102). -/
def execAddImm (dr sr1 : Reg) (imm : BitVec 5) (s : State) : Result :=
  .next (s.writeDest dr (s.getReg sr1 + immOperand imm))

/-- AND, register mode (40_operate.md R104). -/
def execAndReg (dr sr1 sr2 : Reg) (s : State) : Result :=
  .next (s.writeDest dr (s.getReg sr1 &&& s.getReg sr2))

/-- AND, immediate mode (40_operate.md R106). -/
def execAndImm (dr sr1 : Reg) (imm : BitVec 5) (s : State) : Result :=
  .next (s.writeDest dr (s.getReg sr1 &&& immOperand imm))

/-- NOT (40_operate.md R108). -/
def execNot (dr sr : Reg) (s : State) : Result := .next (s.writeDest dr (~~~ s.getReg sr))

end Sys2Proof.Machine
end

