-- ==== Sys2Proof/Machine/System.lean ====
section
/-! DEFINITION. The system instructions TRAP, RTI and RES (43_system.md). PC already holds the instruction's
address plus 1. -/

namespace Sys2Proof.Machine

/-- TRAP (43_system.md R160). -/
def execTrap (vect : Byte) (s : State) : Result := .next (s.enterTrap vect)

/-- RTI, not executed (43_system.md R170): the diagnostic event carries the RTI's address and word. -/
def execRti (ir : Word) (s : State) : Result := .next (s.signal (.diagRti (s.pc - 1) ir))

/-- RES, not executed (43_system.md R172). -/
def execRes (ir : Word) (s : State) : Result := .next (s.signal (.diagRes (s.pc - 1) ir))

end Sys2Proof.Machine
end

