-- ==== Sys2Proof/Machine/Loader.lean ====
section
/-! DEFINITION. The program image and the loader's writes (70_reset_and_hazards.md R243 to R247). -/

namespace Sys2Proof.Machine

/-- Bytes as big-endian 16-bit words (70_reset_and_hazards.md R244); none for an odd number of bytes. -/
def bigEndianWords : List Byte → Option (List Word)
  | [] => some []
  | [_] => none
  | hi :: lo :: rest => (bigEndianWords rest).map fun ws => (hi ++ lo) :: ws

/-- An image's origin and words (70_reset_and_hazards.md R244); none for a file with no origin or an odd
payload (R246). -/
def parseImage (image : List Byte) : Option (Word × List Word) :=
  match bigEndianWords image with
  | some (origin :: ws) => some (origin, ws)
  | some [] => none
  | none => none

/-- `Memory[a + i] <- word_i` for every word (70_reset_and_hazards.md R245), through the host memory port
(R243). -/
def State.writeWords (s : State) (a : Word) : List Word → Result
  | [] => .next s
  | w :: ws => (s.writeWord a w).andThen fun t => t.writeWords (a + 1) ws

/-- The loader's work on an image (70_reset_and_hazards.md R245 to R247): both failures are found before the
first write, so a failed load reports and writes nothing. PC, R0 to R7 and COND are not set. -/
def State.loadImage (s : State) (image : List Byte) : Result :=
  match parseImage image with
  | some (origin, ws) =>
    if origin.toNat + ws.length ≤ 65536 then s.writeWords origin ws
    else .next (s.emit [.loadFailure])
  | none => .next (s.emit [.loadFailure])

/-- Load an image, which the loader does only before the first step (70_reset_and_hazards.md R243; log 18). -/
def hostLoad (image : List Byte) (s : State) : Result :=
  if s.stepped then .refused .loadAfterFirstStep else s.loadImage image

end Sys2Proof.Machine
end

