-- ==== Sys2Proof/Machine/Ports.lean ====
section
/-! DEFINITION. The host's register-file port (60_exceptions.md R226) and memory port (20_memory.md R67). -/

namespace Sys2Proof.Machine

/-- A cell of the 10-cell register file: R0 to R7, PC at index 8, COND at index 9; none beyond. -/
def State.readCell (s : State) (index : Nat) : Option Word :=
  if h : index < 8 then some (s.getReg ⟨index, h⟩)
  else if index = 8 then some s.pc
  else if index = 9 then some s.cond
  else none

/-- Write a cell, all 16 bits as given; none beyond the 10 cells. -/
def State.writeCell (s : State) (index : Nat) (v : Word) : Option State :=
  if h : index < 8 then some (s.setReg ⟨index, h⟩ v)
  else if index = 8 then some (s.setPc v)
  else if index = 9 then some (s.setCond v)
  else none

/-- A read through the register-file port (60_exceptions.md R226). -/
def hostReadReg (index : Nat) (s : State) : Result :=
  match s.readCell index with
  | some v => .next (s.emit [.regValue index v])
  | none => .refused (.registerIndex index)

/-- A write through the register-file port (60_exceptions.md R226). -/
def hostWriteReg (index : Nat) (v : Word) (s : State) : Result :=
  match s.writeCell index v with
  | some t => .next t
  | none => .refused (.registerIndex index)

/-- The word address the memory port uses for an address of any width: modulo 65536 (20_memory.md R67). -/
def portAddress (addr : Nat) : Word := BitVec.ofNat 16 addr

/-- A read through the host memory port (20_memory.md R67). -/
def hostReadMem (addr : Nat) (s : State) : Result :=
  .next ((s.afterRead (portAddress addr)).emit [.memValue addr (s.readWord (portAddress addr))])

/-- A write through the host memory port (20_memory.md R67). -/
def hostWriteMem (addr : Nat) (v : Word) (s : State) : Result := s.writeWord (portAddress addr) v

end Sys2Proof.Machine
end

