-- ==== Sys2Proof/Machine/Services.lean ====
section
/-! DEFINITION. The host's answers to a TRAP and the trap dispatcher's services, as the contract of
60_exceptions.md R210 to R224 gives them. They are host actions, taken in TRAP_PENDING. R211 to R213 set no
condition on the pending vector; that the host may give each of the three signals at any vector, and not only
the one R215 lists for it, is the model's choice (DESIGN CHOICE, log 28). -/

namespace Sys2Proof.Machine

/-- RESUME (60_exceptions.md R211), at any pending vector (DESIGN CHOICE, log 28). -/
def hostResume (s : State) : Result :=
  match s.run with
  | .trapPending _ => .next s.resumeTrap
  | .running | .halted | .aborted => .refused .signalNotAccepted

/-- HALT (60_exceptions.md R212), at any pending vector (DESIGN CHOICE, log 28: R212 and R233 name only x25,
and hostServe gives it only there). -/
def hostHalt (s : State) : Result :=
  match s.run with
  | .trapPending _ => .next ((s.setRun .halted).signal .halted)
  | .running | .halted | .aborted => .refused .signalNotAccepted

/-- ABORT (60_exceptions.md R213): reports the pending vector, whichever it is (DESIGN CHOICE, log 28: R233
names only undefined vectors, and hostServe gives it only there). -/
def hostAbort (s : State) : Result :=
  match s.run with
  | .trapPending v => .next ((s.setRun .aborted).signal (.fatalTrapVector v))
  | .running | .halted | .aborted => .refused .signalNotAccepted

/-- The services of 60_exceptions.md R215. -/
inductive Service where
  | getc | out | puts | inChar | putsp | halt | undefined
  deriving DecidableEq, Repr

/-- The fixed mapping from trap vector to service (60_exceptions.md R215, R223). -/
def Service.ofVector (v : Byte) : Service :=
  if v = 0x20 then .getc
  else if v = 0x21 then .out
  else if v = 0x22 then .puts
  else if v = 0x23 then .inChar
  else if v = 0x24 then .putsp
  else if v = 0x25 then .halt
  else .undefined

/-- How GETC and IN write a character (60_exceptions.md R217): R0 gets it zero-extended, and COND is derived
from it if the parameter `trap_input_sets_flags` says so. -/
def State.inputChar (s : State) (c : Byte) : State :=
  if s.params.trapInputSetsFlags then s.writeDest 0 (zext16 c) else s.setReg 0 (zext16 c)

/-- The bytes PUTS outputs for a word: its low byte (60_exceptions.md R219). -/
def putsBytes (w : Word) : List HostOutput := [.console (w.setWidth 8)]

/-- The bytes PUTSP outputs for a word: the low byte, then the high byte if it is not zero
(60_exceptions.md R221). -/
def putspBytes (w : Word) : List HostOutput :=
  if w.extractLsb' 8 8 = 0 then [.console (w.setWidth 8)]
  else [.console (w.setWidth 8), .console (w.extractLsb' 8 8)]

/-- The loop of PUTS and PUTSP (60_exceptions.md R219, R221) from address `a`, for at most `count` words: the
state it leaves, and whether it met a zero word. -/
def State.putString (bytes : Word → List HostOutput) : Nat → Word → State → State × Bool
  | 0, _, s => (s, false)
  | count + 1, a, s =>
    if s.readWord a = 0 then (s.afterRead a, true)
    else State.putString bytes count (a + 1) ((s.afterRead a).emit (bytes (s.readWord a)))

/-- The dispatcher is still inside its service, which stays the next action; only a RESET can end it
(60_exceptions.md R210, 70_reset_and_hazards.md R240; log 17). -/
def State.stillServing (s : State) (c : Byte) : State :=
  if s.due.head? = some .reset then s else s.setInputs (.serve c :: s.inputs)

/-- PUTS or PUTSP from the address in R0, once round the 65536 words. With no zero word among them the loop
stands where it began, as R0 is unchanged and addresses wrap: the service goes on, and the core stays in
TRAP_PENDING (60_exceptions.md R219, 93_implementation_defined.md; log 17). -/
def servePuts (c : Byte) (bytes : Word → List HostOutput) (s : State) : Result :=
  let loop := s.putString bytes 65536 (s.getReg 0)
  if loop.2 then hostResume loop.1 else .next (loop.1.stillServing c)

/-- The dispatcher serves the pending TRAP and gives its signal (60_exceptions.md R215 to R223); `c` is the
console's character. -/
def hostServe (c : Byte) (s : State) : Result :=
  match s.run with
  | .trapPending v =>
    match Service.ofVector v with
    | .getc => hostResume (s.inputChar c)
    | .out => hostResume (s.emit (putsBytes (s.getReg 0)))
    | .puts => servePuts c putsBytes s
    | .inChar => hostResume ((s.emit [.prompt, .console c]).inputChar c)
    | .putsp => servePuts c putspBytes s
    | .halt => hostHalt (s.emit [.haltNotice])
    | .undefined => hostAbort s
  | .running | .halted | .aborted => .refused .signalNotAccepted

end Sys2Proof.Machine
end

