-- ==== Sys2Proof/Machine/Transition.lean ====
section
/-! DEFINITION. One core step, one host action, and what the machine does with no host action pending. -/

namespace Sys2Proof.Machine

/-- One step in RUNNING (30_encoding.md R90): fetch, increment PC, decode, execute. -/
def runInstr (s : State) : Result := exec (decode s.fetchWord) s.afterFetch

/-- A core step (10_state.md R43): only RUNNING executes. TRAP_PENDING holds until the host answers
(60_exceptions.md R210), and HALTED and ABORTED ignore it (R214). -/
def coreStep (s : State) : Result :=
  match s.run with
  | .running => runInstr s
  | .trapPending _ | .halted | .aborted => .next s

/-- With no host action pending the host is taken to request steps. The core that rests in ABORTED is then
at its fatal end (60_exceptions.md R214, R233; log 13). -/
def idleStep (s : State) : Result :=
  match s.run with
  | .aborted => .fault .aborted
  | .running | .trapPending _ | .halted => coreStep s

/-- One host action (92_eei_decisions.md D6). -/
def hostAct (i : HostInput) (s : State) : Result :=
  match i with
  | .step => coreStep s
  | .reset => .next s.resetSignal
  | .resume => hostResume s
  | .halt => hostHalt s
  | .abort => hostAbort s
  | .serve c => hostServe c s
  | .readReg index => hostReadReg index s
  | .writeReg index v => hostWriteReg index v s
  | .readMem addr => hostReadMem addr s
  | .writeMem addr v => hostWriteMem addr v s
  | .load image => hostLoad image s

/-- The transition: the oldest pending host action that is not held if there is one, a core step otherwise.
A STEP request held in TRAP_PENDING stays ahead of what comes after the answer (92_eei_decisions.md D28;
log 13). -/
def transition (s : State) : Result :=
  match s.due with
  | [] => idleStep s
  | i :: rest => hostAct i (s.setInputs (s.held ++ rest))

/-- Unwire the keyboard pair if the word at PC is one of its words, so that a fetch there reads memory. -/
def State.fetchesMemory (s : State) : State :=
  if s.isKeyboard s.pc then { s with params := { s.params with kbdMmio := none } } else s

/-- The state with a word placed where the next step fetches, made ready to run it: RUNNING, no host action
pending, and memory (not a keyboard answer) at PC (log 20). -/
def State.placeWord (s : State) (w : Word) : State :=
  let t := (s.fetchesMemory.setRun .running).setInputs []
  t.setMem (t.mem.write t.pc w)

end Sys2Proof.Machine
end

