-- ==== Sys2Proof/Machine/Step.lean ====
section
/-! DEFINITION. The machine's step, and the state in which the next step runs a given instruction. -/

namespace Sys2Proof.Machine

/-- One transition of the machine: one core step, or one host action that is pending. -/
def step (s : State) : Host.Outcome State Fault Refusal := transition s

/-- `s` with an instruction of `nbits` bits, numbered as spec/opcode_table.json numbers them, stored where
`step` fetches its next instruction. It stands for the host's load of a program (log 19). -/
def State.withFetchWord (s : State) (nbits w : Nat) : State := s.placeWord (tableWord nbits w)

end Sys2Proof.Machine
end

