-- ==== Sys2Proof/Safety.lean ====
section
/-! DEFINITION. What claims are stated with: how a run ends, the invariants, and what two states have in
common. -/

namespace Sys2Proof.Machine

/-! ### How a run ends (60_exceptions.md R214, R233) -/

/-- The normal end of a program: HALTED. -/
abbrev State.endedWell (s : State) : Prop := s.run = .halted

/-- The fatal end: ABORTED is a fault, never a successful end (60_exceptions.md R214). -/
abbrev State.failed (s : State) : Prop := s.run = .aborted

/-! ### Invariants -/

/-- COND holds exactly one of NEG, ZRO, POS (10_state.md R39). -/
abbrev oneHot (v : Word) : Prop := v = 0x0001 ∨ v = 0x0002 ∨ v = 0x0004

/-- A host action that leaves COND one-hot: any but a write of another value through the register-file port
(10_state.md R39). -/
abbrev HostInput.keepsFlags : HostInput → Prop
  | .writeReg index v => index = 9 → oneHot v
  | .step | .reset | .resume | .halt | .abort | .serve _ | .readReg _ | .readMem _ | .writeMem _ _
  | .load _ => True

/-- COND is one-hot, and no pending host action writes another value (10_state.md R39). -/
abbrev State.flagsInv (s : State) : Prop := oneHot s.cond ∧ ∀ i ∈ s.inputs, i.keepsFlags

/-- A host action that does not write R7 or PC through the register-file port. -/
abbrev HostInput.keepsLink : HostInput → Prop
  | .writeReg index _ => index ≠ 7 ∧ index ≠ 8
  | .step | .reset | .resume | .halt | .abort | .serve _ | .readReg _ | .readMem _ | .writeMem _ _
  | .load _ => True

/-- Traps are precise (60_exceptions.md R207): while one is pending, R7 and PC both hold the address after
the TRAP; and no pending host action overwrites either. -/
abbrev State.linkInv (s : State) : Prop :=
  (∀ v, s.run = .trapPending v → s.getReg Reg.link = s.pc) ∧ ∀ i ∈ s.inputs, i.keepsLink

/-! ### What two states have in common -/

/-- Every register but those listed is unchanged. -/
abbrev SameRegsBut (ds : List Reg) (s t : State) : Prop := ∀ r : Reg, r ∉ ds → t.getReg r = s.getReg r

/-- Every word of memory but those listed reads as before. -/
abbrev SameMemoryBut (as : List Word) (s t : State) : Prop :=
  ∀ a : Word, a ∉ as → t.mem.read a = s.mem.read a

/-- Run state, parameters, boot stage, pending host actions, events and host output are unchanged. -/
abbrev SameControl (s t : State) : Prop :=
  t.run = s.run ∧ t.params = s.params ∧ t.stepped = s.stepped ∧ t.inputs = s.inputs ∧ t.events = s.events ∧
    t.output = s.output

end Sys2Proof.Machine
end

