-- ==== Sys2Proof/Certificates/Slice0/Obligations.lean ====
section
/-! DEFINITION. The statements for the provers. Each docstring names the rule or sentence of spec/ it
formalises; (log n) names the assumption log entry of what is the model's or the spec's own choice. -/

open Sys2Proof Sys2Proof.Machine

/-! ## Encoding and decoding -/

/-- Decode and encode agree on every well-formed instruction, every operand at every value its encoding
admits (30_encoding.md sections 1 and 2). The opcode numbers and field positions are the spec's decisions D1
and D2 (logs 1, 2). -/
def Obligations.EncodedInstructionDecodesBack : Prop :=
  ∀ i : Instr, i.wellFormed = true → decode (encode i) = i

/-- The other direction: encoding what a word decodes to gives back every bit of the word that carries its
opcode, its mode flag or a named field; and what a word decodes to is well formed. -/
def Obligations.DecodingKeepsEveryNamedBit : Prop :=
  ∀ w : Word, (decode w).wellFormed = true ∧
    encode (decode w) &&& (decode w).namedBits = w &&& (decode w).namedBits

/-- The bits no field names are ignored (30_encoding.md section 3; the spec's decision D4, log 4): two words
that agree on the named bits decode to the same instruction, or, for RTI and RES, which report their word, to
the same form. -/
def Obligations.IgnoredBitsDoNotChangeDecoding : Prop :=
  ∀ w w' : Word, w &&& (decode w).namedBits = w' &&& (decode w).namedBits →
    (decode w').form = (decode w).form ∧
    ((decode w).form ≠ .rti → (decode w).form ≠ .res → decode w' = decode w)

/-- No word is illegal: every one of the 65536 words matches exactly one row of the opcode table and decodes
to that row's form (30_encoding.md sections 1 and 3; opcode numbers: log 1, ignored bits: log 4). -/
def Obligations.EveryWordDecodesToItsOneTableRow : Prop :=
  ∀ w : Word, ∃ row ∈ instructionFormats,
    w &&& row.mask = row.bits ∧ (decode w).form = row.form ∧
      ∀ other ∈ instructionFormats, w &&& other.mask = other.bits → other = row

/-- Words written out from the encodings of 30_encoding.md section 1 and the examples of 40_operate.md to
43_system.md decode to the instructions they stand for (positions and opcode numbers: logs 1, 2). -/
def Obligations.SampleWordsDecode : Prop :=
  decode 0x1401 = .addReg 2 0 1 ∧ decode 0x1230 = .addImm 1 0 0b10000 ∧ decode 0x543F = .andImm 2 0 0b11111 ∧
  decode 0x92BF = .not 1 2 ∧ decode 0x0404 = .br false true false 4 ∧ decode 0xC1C0 = .jmp 7 ∧
  decode 0x4805 = .jsr 5 ∧ decode 0x40C0 = .jsrr 3 ∧ decode 0xA601 = .ldi 3 1 ∧
  decode 0x62BD = .ldr 1 2 0b111101 ∧ decode 0x7285 = .str 1 2 5 ∧ decode 0xF025 = .trap 0x25 ∧
  decode 0x8FFF = .rti 0x8FFF ∧ decode 0xD123 = .res 0xD123

/-! ## Operands and addresses -/

/-- 00_scope.md R10: the primitive ORs the field with the 16-bit mask 0xFFFF << n when bit n-1 is set and
else returns it unchanged; on an extracted field this is its two's-complement value. zext_16 pads with zeros. -/
def Obligations.SignExtensionOrsTheMask : Prop :=
  (∀ (n : Nat) (x : Word), 1 ≤ n → n ≤ 15 →
    (x.getLsbD (n - 1) = true → sext n x = x ||| BitVec.ofNat 16 (0xFFFF * 2 ^ n)) ∧
    (x.getLsbD (n - 1) = false → sext n x = x) ∧
    (x.toNat < 2 ^ n → (sext n x).toInt = (x.setWidth n).toInt)) ∧
  (∀ (n : Nat) (x : BitVec n), n ≤ 16 → (zext16 x).toNat = x.toNat)

/-- The signed operands and their ranges (30_encoding.md section 2; field positions: log 2). -/
def Obligations.SignedFieldsAreSignExtended : Prop :=
  (∀ f : BitVec 5, (immOperand f).toInt = f.toInt ∧ -16 ≤ f.toInt ∧ f.toInt ≤ 15) ∧
  (∀ f : BitVec 6, (offset6Operand f).toInt = f.toInt ∧ -32 ≤ f.toInt ∧ f.toInt ≤ 31) ∧
  (∀ f : BitVec 9, (offset9Operand f).toInt = f.toInt ∧ -256 ≤ f.toInt ∧ f.toInt ≤ 255) ∧
  (∀ f : BitVec 11, (offset11Operand f).toInt = f.toInt ∧ -1024 ≤ f.toInt ∧ f.toInt ≤ 1023)

/-- 20_memory.md R53: every address of the core is computed modulo 65536 from PC or a base register, and no
step in RUNNING faults; with no keyboard pair wired every such step answers a next state. -/
def Obligations.AddressesWrapAndNoAccessFaults : Prop :=
  (∀ (s : State) (off : BitVec 9), ((s.pcRelative9 off).toNat : Int) = (s.pc.toNat + off.toInt) % 65536) ∧
  (∀ (s : State) (off : BitVec 11), ((s.pcRelative11 off).toNat : Int) = (s.pc.toNat + off.toInt) % 65536) ∧
  (∀ (s : State) (base : Reg) (off : BitVec 6),
    ((s.baseOffset base off).toNat : Int) = ((s.getReg base).toNat + off.toInt) % 65536) ∧
  (∀ s : State, s.run = .running → s.inputs = [] →
    (∀ f, step s ≠ .fault f) ∧ (s.params.kbdMmio = none → ∃ t, step s = .next t))

/-! ## The step -/

/-- 30_encoding.md R90: a step in RUNNING reads the word at PC, increments PC modulo 2^16, decodes the word
and executes it in that state; so does a STEP request of the host. With the word in plain memory the fetched
word is memory's and the fetch changes PC only. (setStepped notes for the loader that the first step has been
taken, log 18; it is no state of the core.) -/
def Obligations.StepRunsTheDecodedInstruction : Prop :=
  (∀ s : State, s.run = .running → s.inputs = [] →
    step s = exec (decode (s.readWord s.pc)) (((s.afterRead s.pc).setPc (s.pc + 1)).setStepped true)) ∧
  (∀ (s : State) (rest : List HostInput), s.run = .running → s.inputs = .step :: rest →
    step s = exec (decode (s.readWord s.pc))
      ((((s.setInputs rest).afterRead s.pc).setPc (s.pc + 1)).setStepped true)) ∧
  (∀ s : State, s.run = .running → s.inputs = [] → s.isKeyboard s.pc = false →
    step s = exec (decode (s.mem.read s.pc)) ((s.setPc (s.pc + 1)).setStepped true))

/-- A word placed for the next step is the one that step runs, from every state (the model's own operation,
log 20). -/
def Obligations.PlacedWordRunsNext : Prop :=
  ∀ (s : State) (w : Word), ∃ t, step (s.withFetchWord 16 w.toNat) = exec (decode w) t ∧
    t.pc = s.pc + 1 ∧ t.regs = s.regs ∧ t.cond = s.cond ∧ t.run = .running ∧ t.mem.read s.pc = w ∧
    ∀ a, a ≠ s.pc → t.mem.read a = s.mem.read a

/-- PC over a step (10_state.md section 2): every step hands the decoded instruction a PC advanced by 1 modulo
65536, from 0xFFFF to 0x0000; afterwards a taken BR, JMP, JSR and JSRR overwrite it with their targets, and no
other instruction writes it. JSRR's target is BaseR's value before or after the link, in the order of the
spec's decision D16 (log 10). -/
def Obligations.OnlyControlTransfersWritePc : Prop :=
  (∀ s : State, s.run = .running → s.inputs = [] ∨ (∃ rest, s.inputs = .step :: rest) →
    ∃ u, step s = exec (decode (s.readWord s.pc)) u ∧ u.pc.toNat = (s.pc.toNat + 1) % 65536) ∧
  (∀ (n z p : Bool) (off : BitVec 9) (s : State), s.branchTaken n z p = true →
    ∃ t, exec (.br n z p off) s = .next t ∧ t.pc = s.pc + off.signExtend 16) ∧
  (∀ (base : Reg) (s : State), ∃ t, exec (.jmp base) s = .next t ∧ t.pc = s.getReg base) ∧
  (∀ (off : BitVec 11) (s : State), ∃ t, exec (.jsr off) s = .next t ∧ t.pc = s.pc + off.signExtend 16) ∧
  (∀ (base : Reg) (s : State), ∃ t, exec (.jsrr base) s = .next t ∧
    (s.params.jsrrLinkFirst = true → t.pc = t.getReg base) ∧
    (s.params.jsrrLinkFirst = false → t.pc = s.getReg base)) ∧
  (∀ s : State, s.afterFetch.pc.toNat = (s.pc.toNat + 1) % 65536) ∧
  (∀ s : State, s.pc = 0xFFFF → s.afterFetch.pc = 0x0000) ∧
  (∀ (i : Instr) (s t : State), exec i s = .next t →
    i.form ≠ .jmp → i.form ≠ .jsr → i.form ≠ .jsrr →
    (∀ n z p off, i = .br n z p off → s.branchTaken n z p = false) → t.pc = s.pc)

/-- A core that is not RUNNING executes nothing: HALTED and ABORTED ignore a STEP request; TRAP_PENDING stays
as it is, any number of STEP requests held, until the host does something else; with no host action pending
HALTED stays as it is and ABORTED is reported as the fault it is (10_state.md section 6, 60_exceptions.md
section 3; run states and held requests: the spec's decisions D7 and D28; the fault: the model's choice,
log 13). -/
def Obligations.NonRunningCoreExecutesNothing : Prop :=
  (∀ (s : State) (rest : List HostInput), s.run = .halted ∨ s.run = .aborted → s.inputs = .step :: rest →
    step s = .next (s.setInputs rest)) ∧
  (∀ (s : State) (v : Byte) (n : Nat), s.run = .trapPending v → s.inputs = List.replicate n .step →
    step s = .next s) ∧
  (∀ s : State, s.run = .halted → s.inputs = [] → step s = .next s) ∧
  (∀ s : State, s.run = .aborted → s.inputs = [] → step s = .fault .aborted)

/-- No instruction stops the machine: every instruction answers a next state from every state, but for a
store to a wired keyboard word (60_exceptions.md section 1; the keyboard pair: log 8). -/
def Obligations.EveryInstructionCompletes : Prop :=
  ∀ (i : Instr) (s : State), (∃ t, exec i s = .next t) ∨
    ∃ a, s.isKeyboard a = true ∧ exec i s = .refused (.keyboardStore a) ∧
      (i.form = .st ∨ i.form = .sti ∨ i.form = .str)

/-! ## Registers and flags -/

/-- 10_state.md R30: every general-purpose register reads back the last value written, none is hard-wired,
and a write changes nothing else. -/
def Obligations.RegisterWriteReadsBackAlone : Prop :=
  ∀ (s : State) (r : Reg) (v : Word),
    (s.setReg r v).getReg r = v ∧ (∀ q, q ≠ r → (s.setReg r v).getReg q = s.getReg q) ∧
    (s.setReg r v).pc = s.pc ∧ (s.setReg r v).cond = s.cond ∧ (s.setReg r v).mem = s.mem ∧
    SameControl s (s.setReg r v) ∧ (s.setReg r v).draws = s.draws

/-- setcc writes the whole of COND, one flag by the sign of the value, and nothing else (10_state.md
section 3; the bit of each flag is the spec's decision D3, log 3). -/
def Obligations.FlagsFollowTheSign : Prop :=
  ∀ (s : State) (v : Word),
    (s.setcc v).cond = condOf v ∧
    (v = 0 → condOf v = 0x0002) ∧ (v.toInt < 0 → condOf v = 0x0004) ∧ (0 < v.toInt → condOf v = 0x0001) ∧
    SameRegsBut [] s (s.setcc v) ∧ (s.setcc v).pc = s.pc ∧ (s.setcc v).mem = s.mem ∧ SameControl s (s.setcc v)

/-- 10_state.md R37: ADD, AND, NOT, LD, LDI, LDR and LEA derive COND from the value just written to DR, and
every other instruction leaves COND unchanged. -/
def Obligations.ExactlySevenInstructionsSetFlags : Prop :=
  ∀ (i : Instr) (s t : State), exec i s = .next t →
    (∀ dr : Reg, ((∃ a b, i = .addReg dr a b) ∨ (∃ a b, i = .addImm dr a b) ∨ (∃ a b, i = .andReg dr a b) ∨
        (∃ a b, i = .andImm dr a b) ∨ (∃ a, i = .not dr a) ∨ (∃ o, i = .ld dr o) ∨ (∃ o, i = .ldi dr o) ∨
        (∃ b o, i = .ldr dr b o) ∨ (∃ o, i = .lea dr o)) → t.cond = (t.setcc (t.getReg dr)).cond) ∧
    (i.form ∈ [.st, .sti, .str, .br, .jmp, .jsr, .jsrr, .trap, .rti, .res] → t.cond = s.cond)

/-! ## Operate instructions -/

/-- ADD in both modes: completes, DR gets the wrapped sum of SR1 and SR2 or the sign-extended imm5, read
before DR is written, and COND is derived from it (40_operate.md section 1; COND's placement: log 3). -/
def Obligations.AddWritesTheWrappedSum : Prop :=
  (∀ (dr sr1 sr2 : Reg) (s : State), ∃ t, exec (.addReg dr sr1 sr2) s = .next t ∧
    (t.getReg dr).toNat = ((s.getReg sr1).toNat + (s.getReg sr2).toNat) % 65536 ∧
    t.cond = condOf (t.getReg dr)) ∧
  (∀ (dr sr1 : Reg) (imm : BitVec 5) (s : State), ∃ t, exec (.addImm dr sr1 imm) s = .next t ∧
    ((t.getReg dr).toNat : Int) = ((s.getReg sr1).toNat + imm.toInt) % 65536 ∧
    t.cond = condOf (t.getReg dr))

/-- AND in both modes, bit by bit, and NOT: complete, write DR and derive COND from it (40_operate.md
sections 2 and 3; COND's placement: log 3). -/
def Obligations.AndNotWorkBitByBit : Prop :=
  (∀ (dr sr1 sr2 : Reg) (s : State), ∃ t, exec (.andReg dr sr1 sr2) s = .next t ∧
    (∀ k, k < 16 → (t.getReg dr).getLsbD k = ((s.getReg sr1).getLsbD k && (s.getReg sr2).getLsbD k)) ∧
    t.cond = condOf (t.getReg dr)) ∧
  (∀ (dr sr1 : Reg) (imm : BitVec 5) (s : State), ∃ t, exec (.andImm dr sr1 imm) s = .next t ∧
    (∀ k, k < 5 → (t.getReg dr).getLsbD k = ((s.getReg sr1).getLsbD k && imm.getLsbD k)) ∧
    (∀ k, 5 ≤ k → k < 16 → (t.getReg dr).getLsbD k = ((s.getReg sr1).getLsbD k && imm.getLsbD 4)) ∧
    t.cond = condOf (t.getReg dr)) ∧
  (∀ (dr sr : Reg) (s : State), ∃ t, exec (.not dr sr) s = .next t ∧
    (∀ k, k < 16 → (t.getReg dr).getLsbD k = !(s.getReg sr).getLsbD k) ∧
    t.cond = condOf (t.getReg dr))

/-- The frame of ADD, AND, NOT and LEA: only DR and COND change; PC, every word of memory, the run state, the
events and everything of the host's stay (40_operate.md, 42_load_store.md section 2). -/
def Obligations.OperateFrame : Prop :=
  ∀ (i : Instr) (dr : Reg) (s t : State),
    ((∃ a b, i = .addReg dr a b) ∨ (∃ a b, i = .addImm dr a b) ∨ (∃ a b, i = .andReg dr a b) ∨
      (∃ a b, i = .andImm dr a b) ∨ (∃ a, i = .not dr a) ∨ (∃ o, i = .lea dr o)) →
    exec i s = .next t →
    SameRegsBut [dr] s t ∧ SameMemoryBut [] s t ∧ SameControl s t ∧ t.pc = s.pc ∧ t.draws = s.draws

/-- a - b by NOT, ADD #1, ADD is exact modulo 2^16 (40_operate.md section 4), wherever the three registers
stand. -/
def Obligations.SubtractionByComplement : Prop :=
  ∀ (ra rb rd : Reg) (s : State), ra ≠ rd → ∃ t u v,
    exec (.not rd rb) s = .next t ∧ exec (.addImm rd rd 1) t = .next u ∧ exec (.addReg rd ra rd) u = .next v ∧
    v.getReg rd = s.getReg ra - s.getReg rb

/-! ## Control transfer -/

/-- BR completes; it is taken exactly when one of the requested flags is set in COND[2:0] as it stands, and
then PC moves by the signed offset from the incremented PC; else PC keeps it (41_control.md section 1; the
flags' bits: log 3). -/
def Obligations.BranchTestsTheRequestedFlags : Prop :=
  ∀ (n z p : Bool) (off : BitVec 9) (s : State), ∃ t, exec (.br n z p off) s = .next t ∧
    (((n = true ∧ s.cond.getLsbD 2 = true) ∨ (z = true ∧ s.cond.getLsbD 1 = true) ∨
        (p = true ∧ s.cond.getLsbD 0 = true)) → t.pc = s.pc + off.signExtend 16) ∧
    (¬((n = true ∧ s.cond.getLsbD 2 = true) ∨ (z = true ∧ s.cond.getLsbD 1 = true) ∨
        (p = true ∧ s.cond.getLsbD 0 = true)) → t.pc = s.pc)

/-- JMP, and RET which is JMP R7, jump to the register's value; JSR links and jumps to PC + PCoffset11; each
completes (41_control.md sections 2 and 3). -/
def Obligations.JumpsAndCallsReachTheirTargets : Prop :=
  (∀ (base : Reg) (s : State), ∃ t, exec (.jmp base) s = .next t ∧ t.pc = s.getReg base) ∧
  (∀ (off : BitVec 11) (s : State), ∃ t, exec (.jsr off) s = .next t ∧
    t.getReg 7 = s.pc ∧ t.pc = s.pc + off.signExtend 16)

/-- JSRR completes: R7 gets the return address, and PC BaseR's value; for BaseR = R7 the parameter
jsrr_link_first says whether that is the value before or after the link (41_control.md section 3; its default
is the spec's decision D16, log 10). -/
def Obligations.RegisterCallFollowsTheLinkOrder : Prop :=
  ∀ (base : Reg) (s : State), ∃ t, exec (.jsrr base) s = .next t ∧ t.getReg 7 = s.pc ∧
    (base ≠ 7 → t.pc = s.getReg base) ∧
    (base = 7 → s.params.jsrrLinkFirst = true → t.pc = s.pc) ∧
    (base = 7 → s.params.jsrrLinkFirst = false → t.pc = s.getReg 7)

/-- The frame of the control transfers: COND, every word of memory, the run state, the events and everything
of the host's stay; BR and JMP change no register, JSR and JSRR none but R7 (41_control.md). -/
def Obligations.ControlFrame : Prop :=
  ∀ (i : Instr) (s t : State), exec i s = .next t →
    (i.form = .br ∨ i.form = .jmp → SameRegsBut [] s t) ∧
    (i.form = .br ∨ i.form = .jmp ∨ i.form = .jsr ∨ i.form = .jsrr →
      SameRegsBut [7] s t ∧ t.cond = s.cond ∧ SameMemoryBut [] s t ∧ SameControl s t ∧ t.draws = s.draws)

/-- A call comes back: RET after a JSR or JSRR that left R7 alone since continues after the call
(41_control.md sections 2 and 4). -/
def Obligations.ReturnContinuesAfterTheCall : Prop :=
  ∀ (call : Instr) (s t body u : State), call.form = .jsr ∨ call.form = .jsrr → exec call s = .next t →
    body.getReg 7 = t.getReg 7 → exec (.jmp 7) body = .next u → u.pc = s.pc

/-! ## Loads and stores -/

/-- LD, LDI, LDR and LEA complete: DR gets the word at the effective address (for LEA the address itself, for
LDI the word the pointer leads to), COND is derived from it (42_load_store.md sections 1 and 2; COND's
placement: log 3). Each address wraps. -/
def Obligations.LoadsWriteTheAddressedWord : Prop :=
  (∀ (dr : Reg) (off : BitVec 9) (s : State), ∃ t, exec (.ld dr off) s = .next t ∧
    t.getReg dr = s.readWord (s.pc + off.signExtend 16) ∧ t.cond = condOf (t.getReg dr)) ∧
  (∀ (dr : Reg) (off : BitVec 9) (s : State), s.isKeyboard (s.pc + off.signExtend 16) = false →
    ∃ t, exec (.ldi dr off) s = .next t ∧
      t.getReg dr = s.readWord (s.mem.read (s.pc + off.signExtend 16)) ∧ t.cond = condOf (t.getReg dr)) ∧
  (∀ (dr base : Reg) (off : BitVec 6) (s : State), ∃ t, exec (.ldr dr base off) s = .next t ∧
    t.getReg dr = s.readWord (s.getReg base + off.signExtend 16) ∧ t.cond = condOf (t.getReg dr)) ∧
  (∀ (dr : Reg) (off : BitVec 9) (s : State), ∃ t, exec (.lea dr off) s = .next t ∧
    t.getReg dr = s.pc + off.signExtend 16 ∧ t.cond = condOf (t.getReg dr))

/-- LDI through a wired keyboard word completes too: the host's answer is the pointer, and a second keyboard
word takes a fresh answer (42_load_store.md section 2, 20_memory.md section 3; the keyboard pair: log 8). -/
def Obligations.IndirectLoadThroughTheKeyboard : Prop :=
  ∀ (dr : Reg) (off : BitVec 9) (s : State), s.isKeyboard (s.pc + off.signExtend 16) = true →
    ∃ t, exec (.ldi dr off) s = .next t ∧
      (s.isKeyboard (Config.hostRead s.draws) = false →
        t.getReg dr = s.mem.read (Config.hostRead s.draws) ∧ t.draws = s.draws + 1) ∧
      (s.isKeyboard (Config.hostRead s.draws) = true →
        t.getReg dr = Config.hostRead (s.draws + 1) ∧ t.draws = s.draws + 2) ∧
      t.cond = condOf (t.getReg dr)

/-- The frame of LD, LDI and LDR: only DR and COND change; every word of memory, PC, the run state, the events
and everything of the host's stay (42_load_store.md section 2). The draw counter, the model's own (log 8),
moves only for a wired keyboard pair. -/
def Obligations.LoadFrame : Prop :=
  ∀ (i : Instr) (dr : Reg) (s t : State),
    ((∃ o, i = .ld dr o) ∨ (∃ o, i = .ldi dr o) ∨ (∃ b o, i = .ldr dr b o)) → exec i s = .next t →
    SameRegsBut [dr] s t ∧ SameMemoryBut [] s t ∧ SameControl s t ∧ t.pc = s.pc ∧
      (s.params.kbdMmio = none → t.draws = s.draws)

/-- ST, STI and STR complete when the address stored to is no wired keyboard word: the word there becomes
SR's value and every other word reads as before. To a wired keyboard word the store is refused
(42_load_store.md section 3; the keyboard pair: log 8; that STI and STR are implemented is the spec's decision
D24, log 26). -/
def Obligations.StoresWriteOneWord : Prop :=
  (∀ (sr : Reg) (off : BitVec 9) (s : State), ∀ a, s.pcRelative9 off = a →
    (s.isKeyboard a = true → exec (.st sr off) s = .refused (.keyboardStore a)) ∧
    (s.isKeyboard a = false → ∃ t, exec (.st sr off) s = .next t ∧ t.mem.read a = s.getReg sr ∧
      SameMemoryBut [a] s t)) ∧
  (∀ (sr : Reg) (off : BitVec 9) (s : State), ∀ a, s.indirect off = a →
    (s.isKeyboard a = true → exec (.sti sr off) s = .refused (.keyboardStore a)) ∧
    (s.isKeyboard a = false → ∃ t, exec (.sti sr off) s = .next t ∧ t.mem.read a = s.getReg sr ∧
      SameMemoryBut [a] s t)) ∧
  (∀ (sr base : Reg) (off : BitVec 6) (s : State), ∀ a, s.baseOffset base off = a →
    (s.isKeyboard a = true → exec (.str sr base off) s = .refused (.keyboardStore a)) ∧
    (s.isKeyboard a = false → ∃ t, exec (.str sr base off) s = .next t ∧ t.mem.read a = s.getReg sr ∧
      SameMemoryBut [a] s t))

/-- The effective addresses of 42_load_store.md section 1: the functions the store statements name give
PC + sext(PCoffset9), the word there, and R[BaseR] + sext(offset6), and reading the pointer changes no register
and no memory. -/
def Obligations.EffectiveAddressesAreTheTables : Prop :=
  (∀ (s : State) (off : BitVec 9), s.pcRelative9 off = s.pc + off.signExtend 16) ∧
  (∀ (s : State) (off : BitVec 9), s.isKeyboard (s.pc + off.signExtend 16) = false →
    s.indirect off = s.mem.read (s.pc + off.signExtend 16)) ∧
  (∀ (s : State) (base : Reg) (off : BitVec 6), s.baseOffset base off = s.getReg base + off.signExtend 16) ∧
  (∀ (s : State) (off : BitVec 9), SameRegsBut [] s (s.afterPointer off) ∧ (s.afterPointer off).mem = s.mem ∧
    (s.afterPointer off).pc = s.pc ∧ (s.afterPointer off).cond = s.cond)

/-- The frame of the stores beside memory: no register, not COND, not PC, nothing of the host's changes
(42_load_store.md section 3; STI and STR: the spec's decision D24, log 26). The draw counter (log 8) moves only
for a wired keyboard pair. -/
def Obligations.StoreFrame : Prop :=
  ∀ (i : Instr) (s t : State), i.form = .st ∨ i.form = .sti ∨ i.form = .str → exec i s = .next t →
    SameRegsBut [] s t ∧ t.cond = s.cond ∧ t.pc = s.pc ∧ SameControl s t ∧
      (s.params.kbdMmio = none → t.draws = s.draws)

/-- What STR stores LDR loads: a load through the same base and offset reads the stored word back
(42_load_store.md sections 2 and 3), whichever registers are used, with no keyboard pair wired. That STR is
implemented is the spec's decision D24 (log 26). -/
def Obligations.LoadReadsBackTheStoredWord : Prop :=
  ∀ (sr base dr : Reg) (off : BitVec 6) (s : State), s.params.kbdMmio = none →
    ∃ t u, exec (.str sr base off) s = .next t ∧ exec (.ldr dr base off) t = .next u ∧
      u.getReg dr = s.getReg sr

/-- Self-modifying code takes effect at once (20_memory.md section 5): an ST onto the next instruction is what
the next step executes. -/
def Obligations.StoreIsSeenByTheNextFetch : Prop :=
  ∀ (s : State) (sr : Reg), s.run = .running → s.inputs = [] → s.params.kbdMmio = none →
    decode (s.mem.read s.pc) = .st sr 0 →
    ∃ t, step s = .next t ∧ step t = exec (decode (s.getReg sr)) (t.setPc (s.pc + 2))

/-! ## System instructions -/

/-- TRAP completes: R7 gets the return address, PC is not written, the run state becomes TRAP_PENDING with the
8-bit vector, which goes out as one TRAP_REQ event; nothing else changes (43_system.md section 1,
60_exceptions.md section 3; the hand-over is the spec's decisions D7 and D8, log 25). -/
def Obligations.TrapHandsOverTheVector : Prop :=
  ∀ (vect : Byte) (s : State), ∃ t, exec (.trap vect) s = .next t ∧
    t.getReg 7 = s.pc ∧ SameRegsBut [7] s t ∧ t.pc = s.pc ∧ t.cond = s.cond ∧ SameMemoryBut [] s t ∧
    t.run = .trapPending vect ∧ t.events = s.events ++ [.trapReq vect] ∧
    t.params = s.params ∧ t.stepped = s.stepped ∧ t.inputs = s.inputs ∧ t.output = s.output ∧ t.draws = s.draws

/-- 60_exceptions.md R202: an RTI or RES step changes nothing beyond the PC increment of its own step; its
diagnostic event, non-fatal, goes out and the machine runs on. (stepped is the loader's boot stage, log 18, and
no state of the core.) -/
def Obligations.DiagnosticChangesOnlyThePc : Prop :=
  ∀ (s : State), s.run = .running → s.inputs = [] → s.isKeyboard s.pc = false →
    (decode (s.mem.read s.pc)).form = .rti ∨ (decode (s.mem.read s.pc)).form = .res →
    ∃ t e, step s = .next t ∧ t.pc = s.pc + 1 ∧ SameRegsBut [] s t ∧ t.cond = s.cond ∧ SameMemoryBut [] s t ∧
      t.run = .running ∧ t.params = s.params ∧ t.stepped = true ∧ t.inputs = s.inputs ∧ t.output = s.output ∧
      t.draws = s.draws ∧ t.events = s.events ++ [e]

/-- RTI and RES complete; the event carries the instruction's own address and word (43_system.md section 2;
the event's content is the spec's decision D11, log 15). -/
def Obligations.DiagnosticReportsAddressAndWord : Prop :=
  ∀ (ir : Word) (s : State),
    (∃ t, exec (.rti ir) s = .next t ∧ t.events = s.events ++ [.diagRti (s.pc - 1) ir] ∧ t.pc = s.pc ∧
      t.run = s.run ∧ SameMemoryBut [] s t ∧ SameRegsBut [] s t ∧ t.cond = s.cond ∧ t.params = s.params ∧
      t.stepped = s.stepped ∧ t.inputs = s.inputs ∧ t.output = s.output ∧ t.draws = s.draws) ∧
    (∃ t, exec (.res ir) s = .next t ∧ t.events = s.events ++ [.diagRes (s.pc - 1) ir] ∧ t.pc = s.pc ∧
      t.run = s.run ∧ SameMemoryBut [] s t ∧ SameRegsBut [] s t ∧ t.cond = s.cond ∧ t.params = s.params ∧
      t.stepped = s.stepped ∧ t.inputs = s.inputs ∧ t.output = s.output ∧ t.draws = s.draws)

/-- Of all instructions only TRAP leaves the core (43_system.md section 3): an instruction that changes the run
state is a TRAP, and it pends its own vector. The run state TRAP_PENDING and its vector are the spec's decision
D7 (log 25). -/
def Obligations.OnlyTrapLeavesTheCore : Prop :=
  ∀ (i : Instr) (s t : State), exec i s = .next t → t.run ≠ s.run →
    ∃ v, i = .trap v ∧ t.run = .trapPending v

/-! ## Memory and the keyboard pair -/

/-- 20_memory.md R51: MemRead returns memory's word, or for a wired keyboard word the host's answer, and has no
side effect on any state (the draw counter, log 8, is the model's own). -/
def Obligations.ReadReturnsTheWordAndChangesNothing : Prop :=
  (∀ (s : State) (a : Word), s.params.kbdMmio = none → s.readWord a = s.mem.read a ∧ s.afterRead a = s) ∧
  (∀ (s : State) (st d a : Word), s.params.kbdMmio = some (st, d) →
    (a ≠ st → a ≠ d → s.readWord a = s.mem.read a ∧ s.afterRead a = s) ∧
    (a = st ∨ a = d → s.readWord a = Config.hostRead s.draws ∧ SameRegsBut [] s (s.afterRead a) ∧
      (s.afterRead a).pc = s.pc ∧ (s.afterRead a).cond = s.cond ∧ (s.afterRead a).mem = s.mem ∧
      SameControl s (s.afterRead a)))

/-- 20_memory.md R52: MemWrite stores the word at its address and changes no other word; a store to a wired
keyboard word is refused. -/
def Obligations.WriteChangesOneWord : Prop :=
  (∀ (s : State) (a v : Word),
    (s.params.kbdMmio = none ∨ ∃ st d, s.params.kbdMmio = some (st, d) ∧ a ≠ st ∧ a ≠ d) →
    ∃ t, s.writeWord a v = .next t ∧ t.mem.read a = v ∧ SameMemoryBut [a] s t ∧ t.regs = s.regs ∧
      t.pc = s.pc ∧ t.cond = s.cond ∧ SameControl s t ∧ t.draws = s.draws) ∧
  (∀ (s : State) (st d a v : Word), s.params.kbdMmio = some (st, d) → a = st ∨ a = d →
    s.writeWord a v = .refused (.keyboardStore a))

/-- Equal memories are equal data: two memories in canonical form that read alike at every address are the same
list (the model's own representation, log 6). -/
def Obligations.CanonicalMemoriesThatReadAlikeAreEqual : Prop :=
  ∀ m m' : Memory, m.wf → m'.wf → (∀ a : Word, m.read a = m'.read a) → m = m'

/-! ## Reset and invariants -/

/-- Power-on reset holds for every value of the open parameters (10_state.md section 7): PC = 0x3000, COND =
ZRO, RUNNING, R0 to R7 as gpr_reset and memory as mem_init say, in canonical form. The model's reset state is
the one for gpr_reset and mem_init all zero (logs 5, 6) and the default parameters. -/
def Obligations.PowerOnCoversEveryParameter : Prop :=
  (∀ (g : Reg → Word) (m : Word → Word) (p : Params),
    (powerOn g m p).pc = 0x3000 ∧ (powerOn g m p).cond = 0x0002 ∧ (powerOn g m p).run = .running ∧
    (∀ r, (powerOn g m p).getReg r = g r) ∧ (∀ a, (powerOn g m p).mem.read a = m a) ∧
    (powerOn g m p).mem.wf ∧ (powerOn g m p).params = p) ∧
  State.reset = powerOn (fun _ => 0) (fun _ => 0) Params.default

/-- RESET, taken in any run state, sets PC, COND and the run state and changes nothing else of the core
(70_reset_and_hazards.md section 1; that registers and memory survive is the spec's decisions D12 and D13). That
images may be loaded again after it is the model's reading of the boot order (log 18). -/
def Obligations.ResetKeepsRegistersAndMemory : Prop :=
  ∀ (s : State) (rest : List HostInput), s.due = .reset :: rest →
    ∃ t, step s = .next t ∧ t.pc = 0x3000 ∧ t.cond = 0x0002 ∧ t.run = .running ∧ SameRegsBut [] s t ∧
      t.mem = s.mem ∧ t.params = s.params ∧ t.events = s.events ∧ t.output = s.output ∧
      t.draws = s.draws ∧ t.stepped = false ∧ t.inputs = s.held ++ rest

/-- The invariants hold at power-on for every value of the open parameters (10_state.md section 7), and so at
the model's State.reset: memory is canonical, COND is one-hot, no TRAP is pending. The canonical form, State.reset's
empty memory and the empty list of host actions are the model's choices (logs 6 and 12); COND's 0x0002 for ZRO is
the spec's decision D3 (log 3). -/
def Obligations.ResetMeetsTheInvariants : Prop :=
  (∀ (g : Reg → Word) (m : Word → Word) (p : Params),
    (powerOn g m p).mem.wf ∧ (powerOn g m p).flagsInv ∧ (powerOn g m p).linkInv) ∧
  State.reset.mem.wf ∧ State.reset.flagsInv ∧ State.reset.linkInv

/-- Every step, of the core or of the host, keeps memory in canonical form. -/
def Obligations.StepKeepsMemoryCanonical : Prop :=
  ∀ s t : State, s.mem.wf → step s = .next t → t.mem.wf

/-- Every step keeps COND one-hot, unless the host writes another value through the register-file port
(10_state.md section 3; COND's values: log 3). -/
def Obligations.StepKeepsFlagsOneHot : Prop :=
  ∀ s t : State, s.flagsInv → step s = .next t → t.flagsInv

/-- Traps are precise and stay so (60_exceptions.md section 3): a step that enters TRAP_PENDING leaves R7 and PC
both at the TRAP's address plus 1; while the TRAP stays pending its vector, R7 and PC stay, whatever the
dispatcher does, unless the host writes R7 or PC through the port; so that R7 = PC whenever a TRAP is pending is
an invariant. TRAP_PENDING is the spec's decision D7 (log 25), and that the dispatcher writes no more than section
4 lists is its decision D23 (log 23). -/
def Obligations.StepKeepsPendingTrapPrecise : Prop :=
  (∀ s t : State, s.linkInv → step s = .next t → t.linkInv) ∧
  (∀ (s t : State) (v : Byte), (∀ w, s.run ≠ .trapPending w) → step s = .next t → t.run = .trapPending v →
    t.getReg 7 = s.pc + 1 ∧ t.pc = s.pc + 1) ∧
  (∀ (s t : State) (v w : Byte), s.linkInv → s.run = .trapPending v → step s = .next t →
    t.run = .trapPending w → w = v ∧ t.getReg 7 = s.getReg 7 ∧ t.pc = s.pc)

/-- A step reports at most one event, takes back none, and never changes the parameters (60_exceptions.md
section 2; the events' record: log 15, the parameters: log 11). -/
def Obligations.StepReportsAtMostOneEvent : Prop :=
  ∀ s t : State, step s = .next t →
    (t.events = s.events ∨ ∃ e, t.events = s.events ++ [e]) ∧ t.params = s.params

/-- HALTED is entered only from a pending TRAP, by the host's HALT or its service of vector 0x25, and ABORTED
only from a pending TRAP, by ABORT or the service of a vector outside 0x20 to 0x25 (60_exceptions.md sections
3, 4 and 7), and both are left only by RESET (section 3, 10_state.md section 6). The run states are the spec's
decisions D7, D9, D10 and D28; that HALT and ABORT are taken at any pending vector is the model's choice
(log 28). -/
def Obligations.RunEndsOnlyThroughAPendingTrap : Prop :=
  ∀ s t : State, step s = .next t →
    (t.run = .halted → s.run ≠ .halted → ∃ v rest, s.run = .trapPending v ∧
      (s.due = .halt :: rest ∨ ∃ c, s.due = .serve c :: rest ∧ v = 0x25)) ∧
    (t.run = .aborted → s.run ≠ .aborted → ∃ v rest, s.run = .trapPending v ∧
      (s.due = .abort :: rest ∨
        ∃ c, s.due = .serve c :: rest ∧ (v.toNat < 0x20 ∨ 0x25 < v.toNat))) ∧
    (s.run = .halted ∨ s.run = .aborted → s.due.head? ≠ some .reset → t.run = s.run)

/-! ## The host's actions -/

/-- RESUME, HALT and ABORT of a pending TRAP: each changes the run state and reports its event, and nothing
else; outside TRAP_PENDING none is accepted (60_exceptions.md section 3; the signals are the spec's decisions
D7, D9 and D10, the refusal: log 14; that each is taken at any pending vector is the model's choice, log 28). -/
def Obligations.SignalsEndAPendingTrap : Prop :=
  (∀ (s : State) (v : Byte), s.run = .trapPending v →
    hostAct .resume s = .next (s.setRun .running) ∧
    hostAct .halt s = .next ((s.setRun .halted).signal .halted) ∧
    hostAct .abort s = .next ((s.setRun .aborted).signal (.fatalTrapVector v))) ∧
  (∀ s : State, (∀ v, s.run ≠ .trapPending v) →
    ∀ i : HostInput, i = .resume ∨ i = .halt ∨ i = .abort ∨ (∃ c, i = .serve c) →
      hostAct i s = .refused .signalNotAccepted)

/-- The services that read or write one character (60_exceptions.md section 4): GETC and IN write R0 with the
zero-extended character and derive COND only if trap_input_sets_flags says so (log 9), GETC with no output, IN
with its prompt and then the echo (that order: log 16); OUT writes the low byte of R0 to the console; all
resume, and PC, R1 to R7 and memory stay. HALT puts out its notice and halts, and any other vector aborts with
no output. -/
def Obligations.CharacterServicesFollowTheContract : Prop :=
  ∀ (s : State) (v c : Byte), s.run = .trapPending v →
    (v = 0x20 ∨ v = 0x23 → ∃ t, hostAct (.serve c) s = .next t ∧ t.run = .running ∧
      (t.getReg 0).toNat = c.toNat ∧ SameRegsBut [0] s t ∧ t.pc = s.pc ∧ t.mem = s.mem ∧
      t.events = s.events ∧ (v = 0x20 → t.output = s.output) ∧
      (v = 0x23 → t.output = s.output ++ [.prompt, .console c]) ∧
      (s.params.trapInputSetsFlags = true → t.cond = condOf (t.getReg 0)) ∧
      (s.params.trapInputSetsFlags = false → t.cond = s.cond)) ∧
    (v = 0x21 → ∃ t, hostAct (.serve c) s = .next t ∧ t.run = .running ∧ SameRegsBut [] s t ∧ t.pc = s.pc ∧
      t.mem = s.mem ∧ t.cond = s.cond ∧ t.events = s.events ∧
      t.output = s.output ++ [.console ((s.getReg 0).setWidth 8)]) ∧
    (v = 0x25 → ∃ t, hostAct (.serve c) s = .next t ∧ t.run = .halted ∧ t.events = s.events ++ [.halted] ∧
      t.output = s.output ++ [.haltNotice] ∧ SameRegsBut [] s t ∧ t.pc = s.pc ∧ t.mem = s.mem ∧
      t.cond = s.cond) ∧
    (v.toNat < 0x20 ∨ 0x25 < v.toNat → ∃ t, hostAct (.serve c) s = .next t ∧ t.run = .aborted ∧
      t.events = s.events ++ [.fatalTrapVector v] ∧ t.output = s.output ∧ SameRegsBut [] s t ∧ t.pc = s.pc ∧
      t.mem = s.mem ∧ t.cond = s.cond)

/-- PUTS and PUTSP (60_exceptions.md section 4; the spec's decision D22): with a zero word after n nonzero words
from the address in R0, wrapping, the console gets their characters in order, PUTSP's high byte only if it is
not zero, and the core resumes unchanged. -/
def Obligations.StringServicesOutputUpToTheZeroWord : Prop :=
  ∀ (s : State) (c : Byte) (n : Nat), s.params.kbdMmio = none → n < 65536 →
    (∀ k, k < n → s.mem.read (s.getReg 0 + BitVec.ofNat 16 k) ≠ 0) →
    s.mem.read (s.getReg 0 + BitVec.ofNat 16 n) = 0 →
    (s.run = .trapPending 0x22 → hostAct (.serve c) s = .next ((s.setRun .running).emit
      ((List.range n).map fun k =>
        HostOutput.console ((s.mem.read (s.getReg 0 + BitVec.ofNat 16 k)).setWidth 8)))) ∧
    (s.run = .trapPending 0x24 → hostAct (.serve c) s = .next ((s.setRun .running).emit
      ((List.range n).flatMap fun k =>
        [HostOutput.console ((s.mem.read (s.getReg 0 + BitVec.ofNat 16 k)).setWidth 8)] ++
        if (s.mem.read (s.getReg 0 + BitVec.ofNat 16 k)).toNat < 256 then []
        else [HostOutput.console ((s.mem.read (s.getReg 0 + BitVec.ofNat 16 k)).extractLsb' 8 8)])))

/-- A successful load (70_reset_and_hazards.md section 2), which comes before the first step, writes word_i at
origin + i for every i and changes no other word; that it sets no register, not PC and not COND is the spec's
decision D20 (log 18). With no keyboard pair wired. -/
def Obligations.LoaderPlacesTheImage : Prop :=
  ∀ (s : State) (image : List Byte) (origin : Word) (ws : List Word), s.params.kbdMmio = none →
    s.stepped = false → parseImage image = some (origin, ws) → origin.toNat + ws.length ≤ 65536 →
    ∃ t, hostAct (.load image) s = .next t ∧
      (∀ (i : Nat) (h : i < ws.length), t.mem.read (BitVec.ofNat 16 (origin.toNat + i)) = ws[i]) ∧
      (∀ a : Word, a.toNat < origin.toNat ∨ origin.toNat + ws.length ≤ a.toNat →
        t.mem.read a = s.mem.read a) ∧
      t = s.setMem t.mem

/-- The image format and the loader's failures (70_reset_and_hazards.md section 2; the file under two bytes and
the atomic failure are the spec's decision D20, log 18): an even file of at least two bytes gives its
big-endian origin and words; any other file, and an image past 0xFFFF, given before the first step is reported
and writes nothing. -/
def Obligations.BadImageWritesNothing : Prop :=
  (∀ (hi lo : Byte) (payload : List (Byte × Byte)),
    parseImage (hi :: lo :: payload.flatMap fun b => [b.1, b.2]) =
      some (hi ++ lo, payload.map fun b => b.1 ++ b.2)) ∧
  (∀ (s : State) (image : List Byte), s.stepped = false → image.length % 2 = 1 ∨ image.length < 2 ∨
      (∃ origin ws, parseImage image = some (origin, ws) ∧ 65536 < origin.toNat + ws.length) →
    hostAct (.load image) s = .next (s.emit [.loadFailure]))

/-- The host's ports (60_exceptions.md section 5, 20_memory.md section 6; the spec's decisions D6 and D19, log
24): cells 0 to 7 are R0 to R7, 8 is PC, 9 is COND, a read answers the cell and changes nothing, a write stores
all 16 bits and reads back, an index of 10 or more is refused; a memory address of any width is used modulo
65536, for a read as for a write. -/
def Obligations.PortsReachEveryCellAndWord : Prop :=
  (∀ (s : State) (k : Nat) (v : Word), (k < 10 → ∃ t, hostAct (.writeReg k v) s = .next t ∧
      t.readCell k = some v ∧ (∀ j, j ≠ k → t.readCell j = s.readCell j) ∧ t.mem = s.mem ∧ SameControl s t) ∧
    (10 ≤ k → hostAct (.writeReg k v) s = .refused (.registerIndex k) ∧
      hostAct (.readReg k) s = .refused (.registerIndex k))) ∧
  (∀ s : State, (∀ r : Reg, s.readCell r.val = some (s.getReg r)) ∧ s.readCell 8 = some s.pc ∧
    s.readCell 9 = some s.cond) ∧
  (∀ (s : State) (k : Nat), k < 10 → ∃ v, s.readCell k = some v ∧
    hostAct (.readReg k) s = .next (s.emit [.regValue k v])) ∧
  (∀ (s : State) (a : Nat), s.params.kbdMmio = none →
    hostAct (.readMem a) s = .next (s.emit [.memValue a (s.mem.read (BitVec.ofNat 16 (a % 65536)))])) ∧
  (∀ (s : State) (a : Nat) (v : Word), s.params.kbdMmio = none → ∃ t, hostAct (.writeMem a v) s = .next t ∧
    t.mem.read (BitVec.ofNat 16 (a % 65536)) = v ∧ SameMemoryBut [BitVec.ofNat 16 (a % 65536)] s t ∧
    SameRegsBut [] s t ∧ t.pc = s.pc ∧ t.cond = s.cond ∧ SameControl s t)

/-! ## Held requests, services that go on, and the boot stage -/

/-- A STEP request made while a TRAP is pending is held until the host answers (10_state.md section 6; the
spec's decision D28, log 13): whatever else the host does there, the request stays ahead of the actions after
it, and after RESUME it runs the instruction after the TRAP before any of them. In every other run state nothing
is held: the oldest pending action, whatever it is, is what the step performs (60_exceptions.md section 5,
70_reset_and_hazards.md section 2; that the actions are a list: log 12). -/
def Obligations.StepRequestIsHeldUntilTheAnswer : Prop :=
  (∀ (s : State) (i : HostInput) (rest : List HostInput), (∀ v, s.run ≠ .trapPending v) →
    s.inputs = i :: rest → step s = hostAct i (s.setInputs rest)) ∧
  (∀ (s : State) (v : Byte) (n : Nat) (i : HostInput) (rest : List HostInput), s.run = .trapPending v →
    s.inputs = List.replicate n .step ++ i :: rest → i ≠ .step →
    step s = hostAct i (s.setInputs (List.replicate n .step ++ rest))) ∧
  (∀ (s : State) (v : Byte) (rest : List HostInput), s.run = .trapPending v →
    s.inputs = .step :: .resume :: rest → ∃ t, step s = .next t ∧
      t = (s.setRun .running).setInputs (.step :: rest) ∧
      step t = exec (decode (s.readWord s.pc))
        (((((s.setRun .running).setInputs rest).afterRead s.pc).setPc (s.pc + 1)).setStepped true))

/-- A PUTS or PUTSP over a memory with no zero word never ends (60_exceptions.md section 4; the spec's decision
D22): each transition goes once round memory, and leaves the core in TRAP_PENDING with the same vector,
registers, PC, COND and memory, and the service still the next action, so that the same holds of the next
transition too. Only a RESET ends it (log 17). -/
def Obligations.StringWithoutZeroWordNeverEnds : Prop :=
  ∀ (s : State) (v c : Byte) (rest : List HostInput), s.run = .trapPending v → v = 0x22 ∨ v = 0x24 →
    s.params.kbdMmio = none → (∀ a : Word, s.mem.read a ≠ 0) → s.due = .serve c :: rest →
    ∃ t, step s = .next t ∧ t.run = .trapPending v ∧ SameRegsBut [] s t ∧ t.pc = s.pc ∧ t.cond = s.cond ∧
      t.mem = s.mem ∧ t.params = s.params ∧ t.events = s.events ∧
      ((rest.dropWhile (· == .step)).head? ≠ some .reset → t.due = .serve c :: (s.held ++ rest)) ∧
      ((rest.dropWhile (· == .step)).head? = some .reset → t.due = rest.dropWhile (· == .step))

/-- The loader writes only before the first step (70_reset_and_hazards.md section 2; the refusal, and that RESET
begins the boot again: log 18): a step in RUNNING that answers ends the time for loading, no later step that
answers opens it again but RESET, and a load after the first step is refused. -/
def Obligations.LoaderActsOnlyBeforeTheFirstStep : Prop :=
  State.reset.stepped = false ∧
  (∀ (s : State) (image : List Byte), s.stepped = true →
    hostAct (.load image) s = .refused .loadAfterFirstStep) ∧
  (∀ s t : State, s.run = .running → s.inputs = [] ∨ (∃ rest, s.inputs = .step :: rest) → step s = .next t →
    t.stepped = true) ∧
  (∀ s t : State, s.stepped = true → s.due.head? ≠ some .reset → step s = .next t → t.stepped = true)
end

