-- ==== Sys2Proof/Laws/Decode.lean ====
section
/-! SUPPORT. The decoder's and encoder's field operations, bit by bit. -/

namespace Sys2Proof

/-- A placed field's bits stand from `lo` up, and every other bit is zero. -/
theorem getLsbD_place {n : Nat} (x : BitVec n) (lo i : Nat) :
    (place x lo).getLsbD i = (decide (i < 16) && decide (lo ≤ i) && x.getLsbD (i - lo)) := by
  unfold place
  rw [BitVec.getLsbD_shiftLeft, BitVec.getLsbD_setWidth]
  by_cases h : i < 16 <;> by_cases h2 : lo ≤ i
  · have h3 : i - lo < 16 := by omega
    simp [h, h2, h3, Nat.not_lt.2 h2]
  · simp [h2, Nat.not_le.1 h2]
  · simp [h]
  · simp [h]

/-- A field read from a word is known by its bits. -/
theorem extract_of_bits {n : Nat} (w : Word) (lo : Nat) (x : BitVec n)
    (h : ∀ i, i < n → w.getLsbD (lo + i) = x.getLsbD i) : w.extractLsb' lo n = x := by
  apply BitVec.eq_of_getLsbD_eq
  intro i hi
  rw [BitVec.getLsbD_extractLsb', ← h i hi]
  simp [hi]

/-- A register field is known by its three bits. -/
theorem regField_of_bits (w : Word) (lo : Nat) (r : Reg)
    (h : ∀ i, i < 3 → w.getLsbD (lo + i) = (regBits r).getLsbD i) : regField w lo = r := by
  rw [regField, extract_of_bits w lo (regBits r) h]; rfl

/-- The bits of a field read from a word. -/
theorem getLsbD_regBits_regField (w : Word) (lo i : Nat) :
    (regBits (regField w lo)).getLsbD i = (decide (i < 3) && w.getLsbD (lo + i)) := by
  show (w.extractLsb' lo 3).getLsbD i = _
  rw [BitVec.getLsbD_extractLsb']

end Sys2Proof
end

