-- ==== Sys2Proof/Laws/Memory.lean ====
section
/-! SUPPORT. Memory as data: a read after a write, the canonical form under every operation, and that equal
contents are equal data. -/

namespace Sys2Proof.Machine

/-! ### Reading -/

theorem Memory.readAt_insert_self (m : Memory) (a : Nat) (v : Word) (h : ∀ e ∈ m, e.1 ≠ a) :
    (Memory.insert m a v).readAt a = v := by
  induction m with
  | nil => simp [Memory.insert, Memory.readAt]
  | cons e rest ih =>
    obtain ⟨k, x⟩ := e
    have hk : k ≠ a := h (k, x) (by simp)
    unfold Memory.insert
    split
    · simp [Memory.readAt]
    · simp only [Memory.readAt, hk, if_false]
      exact ih fun e he => h e (by simp [he])

theorem Memory.readAt_insert_of_ne (m : Memory) {a b : Nat} (v : Word) (h : b ≠ a) :
    (Memory.insert m a v).readAt b = m.readAt b := by
  induction m with
  | nil => simp [Memory.insert, Memory.readAt, h.symm]
  | cons e rest ih =>
    obtain ⟨k, x⟩ := e
    unfold Memory.insert
    split
    · simp [Memory.readAt, h.symm]
    · simp only [Memory.readAt, ih]

theorem Memory.readAt_of_absent (m : Memory) (a : Nat) (h : ∀ e ∈ m, e.1 ≠ a) :
    m.readAt a = Memory.unlisted := by
  induction m with
  | nil => rfl
  | cons e rest ih =>
    obtain ⟨k, x⟩ := e
    have hk : k ≠ a := h (k, x) (by simp)
    simp only [Memory.readAt, hk, if_false]
    exact ih fun e he => h e (by simp [he])

theorem Memory.readAt_filter_of_ne (m : Memory) {a b : Nat} (h : b ≠ a) :
    Memory.readAt (m.filter fun e => e.1 != a) b = m.readAt b := by
  induction m with
  | nil => rfl
  | cons e rest ih =>
    obtain ⟨k, x⟩ := e
    by_cases hk : k = a
    · have : k ≠ b := fun e => h (e.symm.trans hk)
      simp [Memory.readAt, hk, ih, h.symm]
    · simp [Memory.readAt, hk, ih]

/-- A read gives the word the last write put there (20_memory.md R62). -/
@[simp] theorem Memory.read_write_self (m : Memory) (a v : Word) : (m.write a v).read a = v := by
  have absent : ∀ e ∈ m.filter (fun e => e.1 != a.toNat), e.1 ≠ a.toNat := by simp
  simp only [Memory.write, Memory.read]
  split
  · next h => rw [h]; exact Memory.readAt_of_absent _ _ absent
  · exact Memory.readAt_insert_self _ _ _ absent

/-- A write changes no other word (20_memory.md R52). -/
theorem Memory.read_write_of_ne (m : Memory) {a b : Word} (v : Word) (h : b ≠ a) :
    (m.write a v).read b = m.read b := by
  have hn : b.toNat ≠ a.toNat := fun e => h (BitVec.eq_of_toNat_eq e)
  simp only [Memory.write, Memory.read]
  split
  · exact Memory.readAt_filter_of_ne m hn
  · rw [Memory.readAt_insert_of_ne _ v hn]; exact Memory.readAt_filter_of_ne m hn

theorem Memory.read_write (m : Memory) (a b v : Word) :
    (m.write a v).read b = if b = a then v else m.read b := by
  split
  · next h => subst h; simp
  · next h => exact Memory.read_write_of_ne m v h

/-! ### The canonical form -/

theorem Memory.wf_nil : Memory.wf [] := ⟨List.Pairwise.nil, fun _ h => by cases h⟩

theorem Memory.mem_insert {m : Memory} {a : Nat} {v : Word} {e : Nat × Word} :
    e ∈ Memory.insert m a v ↔ e = (a, v) ∨ e ∈ m := by
  induction m with
  | nil => simp [Memory.insert]
  | cons d rest ih =>
    unfold Memory.insert
    split
    · simp
    · simp only [List.mem_cons, ih]; tauto

theorem Memory.insert_sorted {m : Memory} {a : Nat} {v : Word}
    (h : m.Pairwise fun x y => x.1 < y.1) (absent : ∀ e ∈ m, e.1 ≠ a) :
    (Memory.insert m a v).Pairwise fun x y => x.1 < y.1 := by
  induction m with
  | nil => simp [Memory.insert]
  | cons d rest ih =>
    obtain ⟨k, x⟩ := d
    obtain ⟨hd, ht⟩ := List.pairwise_cons.1 h
    unfold Memory.insert
    split
    · next hlt =>
      refine List.pairwise_cons.2 ⟨fun e he => ?_, h⟩
      rcases List.mem_cons.1 he with rfl | he
      · exact hlt
      · exact hlt.trans (hd e he)
    · next hge =>
      have hne : k ≠ a := absent (k, x) (by simp)
      refine List.pairwise_cons.2 ⟨fun e he => ?_, ih ht fun e he => absent e (by simp [he])⟩
      rcases Memory.mem_insert.1 he with rfl | he
      · show k < a; omega
      · exact hd e he

/-- A write keeps the canonical form. -/
theorem Memory.write_wf {m : Memory} (h : Memory.wf m) (a v : Word) : (m.write a v).wf := by
  have hf : (m.filter fun e => e.1 != a.toNat).Pairwise fun x y => x.1 < y.1 := h.1.filter _
  have hm : ∀ e ∈ m.filter (fun e => e.1 != a.toNat), e.1 < 65536 ∧ e.2 ≠ Memory.unlisted :=
    fun e he => h.2 e (List.mem_filter.1 he).1
  simp only [Memory.write]
  split
  · exact ⟨hf, hm⟩
  · next hv =>
    refine ⟨Memory.insert_sorted hf (by simp), fun e he => ?_⟩
    rcases Memory.mem_insert.1 he with rfl | he
    · exact ⟨a.isLt, hv⟩
    · exact hm e he

theorem Memory.ofFnBelow_wf (f : Word → Word) (n : Nat) : (Memory.ofFnBelow f n).wf := by
  induction n with
  | zero => exact Memory.wf_nil
  | succ n ih => exact Memory.write_wf ih _ _

theorem Memory.ofFnBelow_read (f : Word → Word) (n : Nat) (hn : n ≤ 65536) (a : Word) (h : a.toNat < n) :
    (Memory.ofFnBelow f n).read a = f a := by
  induction n with
  | zero => omega
  | succ n ih =>
    rw [Memory.ofFnBelow, Memory.read_write]
    split
    · next e => rw [e]
    · next e =>
      refine ih (by omega) ?_
      have : a.toNat ≠ n := fun hc => e (by rw [← hc]; simp)
      omega

/-- `Memory.ofFn f` holds `f a` at every address, in canonical form. -/
theorem Memory.ofFn_spec (f : Word → Word) : (Memory.ofFn f).wf ∧ ∀ a, (Memory.ofFn f).read a = f a := by
  unfold Memory.ofFn
  exact ⟨Memory.ofFnBelow_wf f _, fun a => Memory.ofFnBelow_read f _ le_rfl a a.isLt⟩

end Sys2Proof.Machine
end

