-- ==== Sys2Proof/Laws/State.lean ====
section
/-! SUPPORT. One lemma per field per plain update of the state, and what the register and memory readers see
of each update: no later proof unfolds a record update. -/

namespace Sys2Proof.Machine

variable (s : State)

/-! ### setReg -/

@[simp] theorem State.setReg_regs (r : Reg) (v : Word) : (s.setReg r v).regs = s.regs.set r.val v := rfl
@[simp] theorem State.setReg_pc (r : Reg) (v : Word) : (s.setReg r v).pc = s.pc := rfl
@[simp] theorem State.setReg_cond (r : Reg) (v : Word) : (s.setReg r v).cond = s.cond := rfl
@[simp] theorem State.setReg_mem (r : Reg) (v : Word) : (s.setReg r v).mem = s.mem := rfl
@[simp] theorem State.setReg_run (r : Reg) (v : Word) : (s.setReg r v).run = s.run := rfl
@[simp] theorem State.setReg_params (r : Reg) (v : Word) : (s.setReg r v).params = s.params := rfl
@[simp] theorem State.setReg_draws (r : Reg) (v : Word) : (s.setReg r v).draws = s.draws := rfl
@[simp] theorem State.setReg_stepped (r : Reg) (v : Word) : (s.setReg r v).stepped = s.stepped := rfl
@[simp] theorem State.setReg_inputs (r : Reg) (v : Word) : (s.setReg r v).inputs = s.inputs := rfl
@[simp] theorem State.setReg_events (r : Reg) (v : Word) : (s.setReg r v).events = s.events := rfl
@[simp] theorem State.setReg_output (r : Reg) (v : Word) : (s.setReg r v).output = s.output := rfl
@[simp] theorem State.setReg_isKeyboard (r : Reg) (v : Word) (a : Word) : (s.setReg r v).isKeyboard a = s.isKeyboard a := rfl
@[simp] theorem State.setReg_readWord (r : Reg) (v : Word) (a : Word) : (s.setReg r v).readWord a = s.readWord a := rfl

/-! ### setPc -/

@[simp] theorem State.setPc_regs (v : Word) : (s.setPc v).regs = s.regs := rfl
@[simp] theorem State.setPc_pc (v : Word) : (s.setPc v).pc = v := rfl
@[simp] theorem State.setPc_cond (v : Word) : (s.setPc v).cond = s.cond := rfl
@[simp] theorem State.setPc_mem (v : Word) : (s.setPc v).mem = s.mem := rfl
@[simp] theorem State.setPc_run (v : Word) : (s.setPc v).run = s.run := rfl
@[simp] theorem State.setPc_params (v : Word) : (s.setPc v).params = s.params := rfl
@[simp] theorem State.setPc_draws (v : Word) : (s.setPc v).draws = s.draws := rfl
@[simp] theorem State.setPc_stepped (v : Word) : (s.setPc v).stepped = s.stepped := rfl
@[simp] theorem State.setPc_inputs (v : Word) : (s.setPc v).inputs = s.inputs := rfl
@[simp] theorem State.setPc_events (v : Word) : (s.setPc v).events = s.events := rfl
@[simp] theorem State.setPc_output (v : Word) : (s.setPc v).output = s.output := rfl
@[simp] theorem State.setPc_getReg (v : Word) (r : Reg) : (s.setPc v).getReg r = s.getReg r := rfl
@[simp] theorem State.setPc_isKeyboard (v : Word) (a : Word) : (s.setPc v).isKeyboard a = s.isKeyboard a := rfl
@[simp] theorem State.setPc_readWord (v : Word) (a : Word) : (s.setPc v).readWord a = s.readWord a := rfl

/-! ### setCond -/

@[simp] theorem State.setCond_regs (v : Word) : (s.setCond v).regs = s.regs := rfl
@[simp] theorem State.setCond_pc (v : Word) : (s.setCond v).pc = s.pc := rfl
@[simp] theorem State.setCond_cond (v : Word) : (s.setCond v).cond = v := rfl
@[simp] theorem State.setCond_mem (v : Word) : (s.setCond v).mem = s.mem := rfl
@[simp] theorem State.setCond_run (v : Word) : (s.setCond v).run = s.run := rfl
@[simp] theorem State.setCond_params (v : Word) : (s.setCond v).params = s.params := rfl
@[simp] theorem State.setCond_draws (v : Word) : (s.setCond v).draws = s.draws := rfl
@[simp] theorem State.setCond_stepped (v : Word) : (s.setCond v).stepped = s.stepped := rfl
@[simp] theorem State.setCond_inputs (v : Word) : (s.setCond v).inputs = s.inputs := rfl
@[simp] theorem State.setCond_events (v : Word) : (s.setCond v).events = s.events := rfl
@[simp] theorem State.setCond_output (v : Word) : (s.setCond v).output = s.output := rfl
@[simp] theorem State.setCond_getReg (v : Word) (r : Reg) : (s.setCond v).getReg r = s.getReg r := rfl
@[simp] theorem State.setCond_isKeyboard (v : Word) (a : Word) : (s.setCond v).isKeyboard a = s.isKeyboard a := rfl
@[simp] theorem State.setCond_readWord (v : Word) (a : Word) : (s.setCond v).readWord a = s.readWord a := rfl

/-! ### setMem -/

@[simp] theorem State.setMem_regs (m : Memory) : (s.setMem m).regs = s.regs := rfl
@[simp] theorem State.setMem_pc (m : Memory) : (s.setMem m).pc = s.pc := rfl
@[simp] theorem State.setMem_cond (m : Memory) : (s.setMem m).cond = s.cond := rfl
@[simp] theorem State.setMem_mem (m : Memory) : (s.setMem m).mem = m := rfl
@[simp] theorem State.setMem_run (m : Memory) : (s.setMem m).run = s.run := rfl
@[simp] theorem State.setMem_params (m : Memory) : (s.setMem m).params = s.params := rfl
@[simp] theorem State.setMem_draws (m : Memory) : (s.setMem m).draws = s.draws := rfl
@[simp] theorem State.setMem_stepped (m : Memory) : (s.setMem m).stepped = s.stepped := rfl
@[simp] theorem State.setMem_inputs (m : Memory) : (s.setMem m).inputs = s.inputs := rfl
@[simp] theorem State.setMem_events (m : Memory) : (s.setMem m).events = s.events := rfl
@[simp] theorem State.setMem_output (m : Memory) : (s.setMem m).output = s.output := rfl
@[simp] theorem State.setMem_getReg (m : Memory) (r : Reg) : (s.setMem m).getReg r = s.getReg r := rfl
@[simp] theorem State.setMem_isKeyboard (m : Memory) (a : Word) : (s.setMem m).isKeyboard a = s.isKeyboard a := rfl

/-! ### setRun -/

@[simp] theorem State.setRun_regs (r : RunState) : (s.setRun r).regs = s.regs := rfl
@[simp] theorem State.setRun_pc (r : RunState) : (s.setRun r).pc = s.pc := rfl
@[simp] theorem State.setRun_cond (r : RunState) : (s.setRun r).cond = s.cond := rfl
@[simp] theorem State.setRun_mem (r : RunState) : (s.setRun r).mem = s.mem := rfl
@[simp] theorem State.setRun_run (r : RunState) : (s.setRun r).run = r := rfl
@[simp] theorem State.setRun_params (r : RunState) : (s.setRun r).params = s.params := rfl
@[simp] theorem State.setRun_draws (r : RunState) : (s.setRun r).draws = s.draws := rfl
@[simp] theorem State.setRun_stepped (r : RunState) : (s.setRun r).stepped = s.stepped := rfl
@[simp] theorem State.setRun_inputs (r : RunState) : (s.setRun r).inputs = s.inputs := rfl
@[simp] theorem State.setRun_events (r : RunState) : (s.setRun r).events = s.events := rfl
@[simp] theorem State.setRun_output (r : RunState) : (s.setRun r).output = s.output := rfl
@[simp] theorem State.setRun_getReg (x : RunState) (r : Reg) : (s.setRun x).getReg r = s.getReg r := rfl
@[simp] theorem State.setRun_isKeyboard (r : RunState) (a : Word) : (s.setRun r).isKeyboard a = s.isKeyboard a := rfl
@[simp] theorem State.setRun_readWord (r : RunState) (a : Word) : (s.setRun r).readWord a = s.readWord a := rfl

/-! ### countDraw -/

@[simp] theorem State.countDraw_regs : (s.countDraw).regs = s.regs := rfl
@[simp] theorem State.countDraw_pc : (s.countDraw).pc = s.pc := rfl
@[simp] theorem State.countDraw_cond : (s.countDraw).cond = s.cond := rfl
@[simp] theorem State.countDraw_mem : (s.countDraw).mem = s.mem := rfl
@[simp] theorem State.countDraw_run : (s.countDraw).run = s.run := rfl
@[simp] theorem State.countDraw_params : (s.countDraw).params = s.params := rfl
@[simp] theorem State.countDraw_draws : (s.countDraw).draws = s.draws + 1 := rfl
@[simp] theorem State.countDraw_stepped : (s.countDraw).stepped = s.stepped := rfl
@[simp] theorem State.countDraw_inputs : (s.countDraw).inputs = s.inputs := rfl
@[simp] theorem State.countDraw_events : (s.countDraw).events = s.events := rfl
@[simp] theorem State.countDraw_output : (s.countDraw).output = s.output := rfl
@[simp] theorem State.countDraw_getReg (r : Reg) : (s.countDraw).getReg r = s.getReg r := rfl
@[simp] theorem State.countDraw_isKeyboard (a : Word) : (s.countDraw).isKeyboard a = s.isKeyboard a := rfl

/-! ### setStepped -/

@[simp] theorem State.setStepped_regs (b : Bool) : (s.setStepped b).regs = s.regs := rfl
@[simp] theorem State.setStepped_pc (b : Bool) : (s.setStepped b).pc = s.pc := rfl
@[simp] theorem State.setStepped_cond (b : Bool) : (s.setStepped b).cond = s.cond := rfl
@[simp] theorem State.setStepped_mem (b : Bool) : (s.setStepped b).mem = s.mem := rfl
@[simp] theorem State.setStepped_run (b : Bool) : (s.setStepped b).run = s.run := rfl
@[simp] theorem State.setStepped_params (b : Bool) : (s.setStepped b).params = s.params := rfl
@[simp] theorem State.setStepped_draws (b : Bool) : (s.setStepped b).draws = s.draws := rfl
@[simp] theorem State.setStepped_stepped (b : Bool) : (s.setStepped b).stepped = b := rfl
@[simp] theorem State.setStepped_inputs (b : Bool) : (s.setStepped b).inputs = s.inputs := rfl
@[simp] theorem State.setStepped_events (b : Bool) : (s.setStepped b).events = s.events := rfl
@[simp] theorem State.setStepped_output (b : Bool) : (s.setStepped b).output = s.output := rfl
@[simp] theorem State.setStepped_getReg (b : Bool) (r : Reg) : (s.setStepped b).getReg r = s.getReg r := rfl
@[simp] theorem State.setStepped_isKeyboard (b : Bool) (a : Word) : (s.setStepped b).isKeyboard a = s.isKeyboard a := rfl
@[simp] theorem State.setStepped_readWord (b : Bool) (a : Word) : (s.setStepped b).readWord a = s.readWord a := rfl

/-! ### setInputs -/

@[simp] theorem State.setInputs_regs (is : List HostInput) : (s.setInputs is).regs = s.regs := rfl
@[simp] theorem State.setInputs_pc (is : List HostInput) : (s.setInputs is).pc = s.pc := rfl
@[simp] theorem State.setInputs_cond (is : List HostInput) : (s.setInputs is).cond = s.cond := rfl
@[simp] theorem State.setInputs_mem (is : List HostInput) : (s.setInputs is).mem = s.mem := rfl
@[simp] theorem State.setInputs_run (is : List HostInput) : (s.setInputs is).run = s.run := rfl
@[simp] theorem State.setInputs_params (is : List HostInput) : (s.setInputs is).params = s.params := rfl
@[simp] theorem State.setInputs_draws (is : List HostInput) : (s.setInputs is).draws = s.draws := rfl
@[simp] theorem State.setInputs_stepped (is : List HostInput) : (s.setInputs is).stepped = s.stepped := rfl
@[simp] theorem State.setInputs_inputs (is : List HostInput) : (s.setInputs is).inputs = is := rfl
@[simp] theorem State.setInputs_events (is : List HostInput) : (s.setInputs is).events = s.events := rfl
@[simp] theorem State.setInputs_output (is : List HostInput) : (s.setInputs is).output = s.output := rfl
@[simp] theorem State.setInputs_getReg (is : List HostInput) (r : Reg) : (s.setInputs is).getReg r = s.getReg r := rfl
@[simp] theorem State.setInputs_isKeyboard (is : List HostInput) (a : Word) : (s.setInputs is).isKeyboard a = s.isKeyboard a := rfl
@[simp] theorem State.setInputs_readWord (is : List HostInput) (a : Word) : (s.setInputs is).readWord a = s.readWord a := rfl

/-! ### signal -/

@[simp] theorem State.signal_regs (e : Event) : (s.signal e).regs = s.regs := rfl
@[simp] theorem State.signal_pc (e : Event) : (s.signal e).pc = s.pc := rfl
@[simp] theorem State.signal_cond (e : Event) : (s.signal e).cond = s.cond := rfl
@[simp] theorem State.signal_mem (e : Event) : (s.signal e).mem = s.mem := rfl
@[simp] theorem State.signal_run (e : Event) : (s.signal e).run = s.run := rfl
@[simp] theorem State.signal_params (e : Event) : (s.signal e).params = s.params := rfl
@[simp] theorem State.signal_draws (e : Event) : (s.signal e).draws = s.draws := rfl
@[simp] theorem State.signal_stepped (e : Event) : (s.signal e).stepped = s.stepped := rfl
@[simp] theorem State.signal_inputs (e : Event) : (s.signal e).inputs = s.inputs := rfl
@[simp] theorem State.signal_events (e : Event) : (s.signal e).events = s.events ++ [e] := rfl
@[simp] theorem State.signal_output (e : Event) : (s.signal e).output = s.output := rfl
@[simp] theorem State.signal_getReg (e : Event) (r : Reg) : (s.signal e).getReg r = s.getReg r := rfl
@[simp] theorem State.signal_isKeyboard (e : Event) (a : Word) : (s.signal e).isKeyboard a = s.isKeyboard a := rfl
@[simp] theorem State.signal_readWord (e : Event) (a : Word) : (s.signal e).readWord a = s.readWord a := rfl

/-! ### emit -/

@[simp] theorem State.emit_regs (os : List HostOutput) : (s.emit os).regs = s.regs := rfl
@[simp] theorem State.emit_pc (os : List HostOutput) : (s.emit os).pc = s.pc := rfl
@[simp] theorem State.emit_cond (os : List HostOutput) : (s.emit os).cond = s.cond := rfl
@[simp] theorem State.emit_mem (os : List HostOutput) : (s.emit os).mem = s.mem := rfl
@[simp] theorem State.emit_run (os : List HostOutput) : (s.emit os).run = s.run := rfl
@[simp] theorem State.emit_params (os : List HostOutput) : (s.emit os).params = s.params := rfl
@[simp] theorem State.emit_draws (os : List HostOutput) : (s.emit os).draws = s.draws := rfl
@[simp] theorem State.emit_stepped (os : List HostOutput) : (s.emit os).stepped = s.stepped := rfl
@[simp] theorem State.emit_inputs (os : List HostOutput) : (s.emit os).inputs = s.inputs := rfl
@[simp] theorem State.emit_events (os : List HostOutput) : (s.emit os).events = s.events := rfl
@[simp] theorem State.emit_output (os : List HostOutput) : (s.emit os).output = s.output ++ os := rfl
@[simp] theorem State.emit_getReg (os : List HostOutput) (r : Reg) : (s.emit os).getReg r = s.getReg r := rfl
@[simp] theorem State.emit_isKeyboard (os : List HostOutput) (a : Word) : (s.emit os).isKeyboard a = s.isKeyboard a := rfl
@[simp] theorem State.emit_readWord (os : List HostOutput) (a : Word) : (s.emit os).readWord a = s.readWord a := rfl

/-! ### Reading a register after writing one -/

@[simp] theorem State.getReg_setReg_self (r : Reg) (v : Word) : (s.setReg r v).getReg r = v := by
  simp [State.getReg]

theorem State.getReg_setReg_of_ne {r q : Reg} (v : Word) (h : q ≠ r) :
    (s.setReg r v).getReg q = s.getReg q := by
  have : r.val ≠ q.val := fun e => h (Fin.ext e.symm)
  simp [State.getReg, this]

theorem State.getReg_setReg (r q : Reg) (v : Word) :
    (s.setReg r v).getReg q = if q = r then v else s.getReg q := by
  split
  · next h => subst h; simp
  · next h => exact s.getReg_setReg_of_ne v h

/-- Two states are equal when all their fields are. -/
theorem State.ext_fields {s t : State} (h1 : s.regs = t.regs) (h2 : s.pc = t.pc) (h3 : s.cond = t.cond)
    (h4 : s.mem = t.mem) (h5 : s.run = t.run) (h6 : s.params = t.params) (h7 : s.draws = t.draws)
    (h8 : s.stepped = t.stepped) (h9 : s.inputs = t.inputs) (h10 : s.events = t.events)
    (h11 : s.output = t.output) : s = t := by
  cases s; cases t; simp_all

end Sys2Proof.Machine
end

