-- ==== Sys2Proof/Laws/Ops.lean ====
section
/-! SUPPORT. One lemma per shared operation that says everything it can do. -/

namespace Sys2Proof.Machine

variable (s : State)

/-! ### MemRead -/

/-- A read changes at most the draw counter. -/
theorem State.afterRead_eq (a : Word) : s.afterRead a = s ∨ s.afterRead a = s.countDraw := by
  unfold State.afterRead; split <;> simp

/-- With no keyboard pair wired a read gives memory's word and changes nothing (20_memory.md R51). -/
theorem State.read_plain {a : Word} (h : s.isKeyboard a = false) :
    s.readWord a = s.mem.read a ∧ s.afterRead a = s := by
  simp [State.readWord, State.afterRead, h]

theorem State.isKeyboard_of_none (h : s.params.kbdMmio = none) (a : Word) : s.isKeyboard a = false := by
  simp [State.isKeyboard, h]

@[simp] theorem State.afterRead_regs (a : Word) : (s.afterRead a).regs = s.regs := by
  rcases s.afterRead_eq a with h | h <;> simp [h]
@[simp] theorem State.afterRead_pc (a : Word) : (s.afterRead a).pc = s.pc := by
  rcases s.afterRead_eq a with h | h <;> simp [h]
@[simp] theorem State.afterRead_cond (a : Word) : (s.afterRead a).cond = s.cond := by
  rcases s.afterRead_eq a with h | h <;> simp [h]
@[simp] theorem State.afterRead_mem (a : Word) : (s.afterRead a).mem = s.mem := by
  rcases s.afterRead_eq a with h | h <;> simp [h]
@[simp] theorem State.afterRead_run (a : Word) : (s.afterRead a).run = s.run := by
  rcases s.afterRead_eq a with h | h <;> simp [h]
@[simp] theorem State.afterRead_params (a : Word) : (s.afterRead a).params = s.params := by
  rcases s.afterRead_eq a with h | h <;> simp [h]
@[simp] theorem State.afterRead_stepped (a : Word) : (s.afterRead a).stepped = s.stepped := by
  rcases s.afterRead_eq a with h | h <;> simp [h]
@[simp] theorem State.afterRead_inputs (a : Word) : (s.afterRead a).inputs = s.inputs := by
  rcases s.afterRead_eq a with h | h <;> simp [h]
@[simp] theorem State.afterRead_events (a : Word) : (s.afterRead a).events = s.events := by
  rcases s.afterRead_eq a with h | h <;> simp [h]
@[simp] theorem State.afterRead_output (a : Word) : (s.afterRead a).output = s.output := by
  rcases s.afterRead_eq a with h | h <;> simp [h]
@[simp] theorem State.afterRead_getReg (a : Word) (r : Reg) : (s.afterRead a).getReg r = s.getReg r := by
  simp [State.getReg]
@[simp] theorem State.afterRead_isKeyboard (a b : Word) :
    (s.afterRead a).isKeyboard b = s.isKeyboard b := by simp [State.isKeyboard]

/-! ### MemWrite -/

/-- A write that answers changes memory's one word; one that does not is a store to a wired keyboard word. -/
theorem State.writeWord_cases (a v : Word) :
    (s.isKeyboard a = false ∧ s.writeWord a v = .next (s.setMem (s.mem.write a v))) ∨
    (s.isKeyboard a = true ∧ s.writeWord a v = .refused (.keyboardStore a)) := by
  unfold State.writeWord
  cases h : s.isKeyboard a <;> simp

theorem State.writeWord_next {s t : State} {a v : Word} (h : s.writeWord a v = .next t) :
    s.isKeyboard a = false ∧ t = s.setMem (s.mem.write a v) := by
  rcases s.writeWord_cases a v with ⟨hk, e⟩ | ⟨_, e⟩
  · rw [e] at h; exact ⟨hk, by cases h; rfl⟩
  · rw [e] at h; cases h

theorem State.writeWord_plain {a : Word} (v : Word) (h : s.isKeyboard a = false) :
    s.writeWord a v = .next (s.setMem (s.mem.write a v)) := by simp [State.writeWord, h]

theorem Result.andThen_next {r : Result} {f : State → Result} {t : State} (h : r.andThen f = .next t) :
    ∃ u, r = .next u ∧ f u = .next t := by
  cases r with
  | next u => exact ⟨u, rfl, h⟩
  | fault e => cases h
  | refused e => cases h

/-! ### The host's pending actions -/

/-- Only STEP requests are held (92_eei_decisions.md D28). -/
theorem State.held_step {i : HostInput} (h : i ∈ s.held) : i = .step := by
  unfold State.held at h
  split at h
  · simpa using List.mem_takeWhile_imp h
  all_goals cases h

/-- The held requests stand before the due actions, and together they are all that is pending. -/
theorem State.held_append_due : s.held ++ s.due = s.inputs := by
  unfold State.held State.due
  split
  · exact List.takeWhile_append_dropWhile
  all_goals rfl

/-- Outside TRAP_PENDING nothing is held and every pending action is due. -/
theorem State.due_of_not_pending (h : ∀ v, s.run ≠ .trapPending v) : s.held = [] ∧ s.due = s.inputs := by
  unfold State.held State.due
  split
  · next v hv => exact absurd hv (h v)
  all_goals exact ⟨rfl, rfl⟩

/-- In every run state an action other than STEP that stands first is due, with nothing held. -/
theorem State.due_of_head {i : HostInput} {rest : List HostInput} (h : s.inputs = i :: rest) (hi : i ≠ .step) :
    s.held = [] ∧ s.due = i :: rest := by
  unfold State.held State.due
  split <;> simp [h, hi]

/-- In TRAP_PENDING the STEP requests that stand first are held, and the action behind them is due. -/
theorem State.due_of_steps {v : Byte} {n : Nat} {rest : List HostInput} (hr : s.run = .trapPending v)
    (h : s.inputs = List.replicate n .step ++ rest) (hd : rest.head? ≠ some .step) :
    s.held = List.replicate n .step ∧ s.due = rest := by
  unfold State.held State.due
  simp only [hr, h]
  clear h
  induction n with
  | zero =>
    cases rest with
    | nil => simp
    | cons i is =>
      have hi : i ≠ .step := fun e => hd (by simp [e])
      simp [hi]
  | succ n ih =>
    simp [List.replicate_succ, ih.1, ih.2]

/-! ### Destination and flags -/

/-- COND is one of the three one-hot values after `setcc` (10_state.md R36). -/
theorem condOf_oneHot (v : Word) : condOf v = condNEG ∨ condOf v = condZRO ∨ condOf v = condPOS := by
  unfold condOf; split
  · simp
  · split <;> simp

theorem State.setcc_eq (v : Word) : s.setcc v = s.setCond (condOf v) := rfl

theorem State.writeDest_eq (dr : Reg) (v : Word) : s.writeDest dr v = (s.setReg dr v).setCond (condOf v) := rfl

@[simp] theorem State.writeDest_getReg (dr : Reg) (v : Word) (r : Reg) :
    (s.writeDest dr v).getReg r = if r = dr then v else s.getReg r := by
  simp [State.writeDest_eq, State.getReg_setReg]
@[simp] theorem State.writeDest_cond (dr : Reg) (v : Word) : (s.writeDest dr v).cond = condOf v := rfl
@[simp] theorem State.writeDest_pc (dr : Reg) (v : Word) : (s.writeDest dr v).pc = s.pc := rfl
@[simp] theorem State.writeDest_mem (dr : Reg) (v : Word) : (s.writeDest dr v).mem = s.mem := rfl
@[simp] theorem State.writeDest_run (dr : Reg) (v : Word) : (s.writeDest dr v).run = s.run := rfl
@[simp] theorem State.writeDest_params (dr : Reg) (v : Word) : (s.writeDest dr v).params = s.params := rfl
@[simp] theorem State.writeDest_draws (dr : Reg) (v : Word) : (s.writeDest dr v).draws = s.draws := rfl
@[simp] theorem State.writeDest_stepped (dr : Reg) (v : Word) : (s.writeDest dr v).stepped = s.stepped := rfl
@[simp] theorem State.writeDest_inputs (dr : Reg) (v : Word) : (s.writeDest dr v).inputs = s.inputs := rfl
@[simp] theorem State.writeDest_events (dr : Reg) (v : Word) : (s.writeDest dr v).events = s.events := rfl
@[simp] theorem State.writeDest_output (dr : Reg) (v : Word) : (s.writeDest dr v).output = s.output := rfl

/-! ### Sign extension -/

/-- On a field that was extracted as n bits the primitive of 00_scope.md R10 is the two's-complement sign
extension. -/
theorem sext_setWidth {n : Nat} (h0 : 0 < n) (hn : n ≤ 16) (x : BitVec n) :
    sext n (x.setWidth 16) = x.signExtend 16 := by
  have hm : (x.setWidth 16).getLsbD (n - 1) = x.msb := by
    rw [BitVec.getLsbD_setWidth, BitVec.msb_eq_getLsbD_last]
    simp [show n - 1 < 16 by omega]
  unfold sext
  rw [hm]
  apply BitVec.eq_of_getLsbD_eq
  intro i hi
  rw [BitVec.getLsbD_signExtend]
  by_cases hs : x.msb = true
  · rw [if_pos hs, BitVec.getLsbD_or, BitVec.getLsbD_setWidth, BitVec.getLsbD_shiftLeft, hs]
    by_cases hlt : i < n
    · simp [hi, hlt]
    · have : x.getLsbD i = false := BitVec.getLsbD_of_ge x i (by omega)
      have h1 : (0xFFFF#16).getLsbD (i - n) = true := by
        have : ∀ j : Fin 16, (0xFFFF#16).getLsbD j.val = true := by decide
        exact this ⟨i - n, by omega⟩
      simp [hi, hlt, this, h1]
  · rw [if_neg hs, BitVec.getLsbD_setWidth]
    by_cases hlt : i < n
    · simp [hi, hlt]
    · have : x.getLsbD i = false := BitVec.getLsbD_of_ge x i (by omega)
      simp [hi, hlt, this, hs]

theorem immOperand_eq (imm : BitVec 5) : immOperand imm = imm.signExtend 16 :=
  sext_setWidth (by omega) (by omega) imm
theorem offset6Operand_eq (off : BitVec 6) : offset6Operand off = off.signExtend 16 :=
  sext_setWidth (by omega) (by omega) off
theorem offset9Operand_eq (off : BitVec 9) : offset9Operand off = off.signExtend 16 :=
  sext_setWidth (by omega) (by omega) off
theorem offset11Operand_eq (off : BitVec 11) : offset11Operand off = off.signExtend 16 :=
  sext_setWidth (by omega) (by omega) off

end Sys2Proof.Machine
end

