-- ==== Sys2Proof/Laws/Host.lean ====
section
/-! SUPPORT. What the host's actions and the transition can do, each said once. -/

namespace Sys2Proof.Machine

/-! ### The host's signals -/

theorem hostResume_pending {s : State} {v : Byte} (h : s.run = .trapPending v) :
    hostResume s = .next (s.setRun .running) := by simp [hostResume, h, State.resumeTrap]

theorem hostHalt_pending {s : State} {v : Byte} (h : s.run = .trapPending v) :
    hostHalt s = .next ((s.setRun .halted).signal .halted) := by simp [hostHalt, h]

theorem hostAbort_pending {s : State} {v : Byte} (h : s.run = .trapPending v) :
    hostAbort s = .next ((s.setRun .aborted).signal (.fatalTrapVector v)) := by simp [hostAbort, h]

theorem hostResume_next {s t : State} (h : hostResume s = .next t) :
    ∃ v, s.run = .trapPending v ∧ t = s.setRun .running := by
  cases hr : s.run with
  | trapPending v => rw [hostResume_pending hr] at h; cases h; exact ⟨v, rfl, rfl⟩
  | running => simp [hostResume, hr] at h
  | halted => simp [hostResume, hr] at h
  | aborted => simp [hostResume, hr] at h

theorem hostHalt_next {s t : State} (h : hostHalt s = .next t) :
    ∃ v, s.run = .trapPending v ∧ t = (s.setRun .halted).signal .halted := by
  cases hr : s.run with
  | trapPending v => rw [hostHalt_pending hr] at h; cases h; exact ⟨v, rfl, rfl⟩
  | running => simp [hostHalt, hr] at h
  | halted => simp [hostHalt, hr] at h
  | aborted => simp [hostHalt, hr] at h

theorem hostAbort_next {s t : State} (h : hostAbort s = .next t) :
    ∃ v, s.run = .trapPending v ∧ t = (s.setRun .aborted).signal (.fatalTrapVector v) := by
  cases hr : s.run with
  | trapPending v => rw [hostAbort_pending hr] at h; cases h; exact ⟨v, rfl, rfl⟩
  | running => simp [hostAbort, hr] at h
  | halted => simp [hostAbort, hr] at h
  | aborted => simp [hostAbort, hr] at h

/-! ### The services -/

/-- What a string service leaves of the core: everything (60_exceptions.md R219, R221). -/
abbrev SameCore (s t : State) : Prop :=
  t.regs = s.regs ∧ t.pc = s.pc ∧ t.cond = s.cond ∧ t.mem = s.mem ∧ t.run = s.run ∧ t.params = s.params ∧
    t.stepped = s.stepped ∧ t.inputs = s.inputs ∧ t.events = s.events

theorem SameCore.refl (s : State) : SameCore s s := ⟨rfl, rfl, rfl, rfl, rfl, rfl, rfl, rfl, rfl⟩

theorem SameCore.emit (s : State) (os : List HostOutput) : SameCore s (s.emit os) := SameCore.refl s

/-- PUTS and PUTSP change nothing of the core: only the draw counter and the console output move
(60_exceptions.md R219, R221). -/
theorem State.putString_frame (bytes : Word → List HostOutput) (count : Nat) (a : Word) (s : State) :
    SameCore s (s.putString bytes count a).1 := by
  induction count generalizing a s with
  | zero => simp [State.putString, SameCore]
  | succ n ih =>
    unfold State.putString
    split
    · simp [SameCore]
    · simpa [SameCore] using ih (a + 1) ((s.afterRead a).emit (bytes (s.readWord a)))

/-- With no keyboard pair wired, the loop over `n` words that are not zero goes on behind them with their bytes
put out; it has met no zero word yet (60_exceptions.md R219, R221). -/
theorem State.putString_nonzero (bytes : Word → List HostOutput) (n count : Nat) (a : Word) (s : State)
    (hk : s.params.kbdMmio = none) (h : ∀ k, k < n → s.mem.read (a + BitVec.ofNat 16 k) ≠ 0) :
    s.putString bytes (n + count) a =
      (s.emit ((List.range n).flatMap fun k => bytes (s.mem.read (a + BitVec.ofNat 16 k)))).putString bytes count
        (a + BitVec.ofNat 16 n) := by
  induction n generalizing a s with
  | zero => simp [State.emit]
  | succ n ih =>
    have shift : ∀ k, a + 1 + BitVec.ofNat 16 k = a + BitVec.ofNat 16 (k + 1) := fun k => by
      rw [BitVec.add_assoc, BitVec.add_comm 1, BitVec.ofNat_add k 1]; rfl
    have h0 := h 0 (by omega)
    rw [show a + BitVec.ofNat 16 0 = a from BitVec.add_zero a] at h0
    obtain ⟨hr, ha⟩ := s.read_plain (s.isKeyboard_of_none hk a)
    rw [show n + 1 + count = (n + count) + 1 by omega, State.putString, hr, if_neg h0, ha,
      ih (a + 1) (s.emit _) hk fun k hk' => by rw [shift]; exact h (k + 1) (by omega)]
    simp only [State.emit_mem, shift]
    simp [List.range_succ_eq_map, State.emit, List.flatMap_map]

/-- The service stays pending, or a RESET that follows ends it: nothing but the pending actions moves. -/
theorem State.stillServing_cases (s : State) (c : Byte) :
    (s.due.head? = some .reset ∧ s.stillServing c = s) ∨
    (s.due.head? ≠ some .reset ∧ s.stillServing c = s.setInputs (.serve c :: s.inputs)) := by
  unfold State.stillServing
  split
  · next h => exact .inl ⟨h, rfl⟩
  · next h => exact .inr ⟨h, rfl⟩

/-- Everything PUTS and PUTSP can do when they answer: nothing of the core moves but the run state, which
becomes RUNNING when the string has ended, and else the service goes on. -/
theorem servePuts_next {c : Byte} {bytes : Word → List HostOutput} {s t : State}
    (h : servePuts c bytes s = .next t) :
    ∃ u, SameCore s u ∧ (t = u.setRun .running ∨ t = u ∨ t = u.setInputs (.serve c :: u.inputs)) := by
  refine ⟨_, State.putString_frame bytes 65536 (s.getReg 0) s, ?_⟩
  simp only [servePuts] at h
  split at h
  · exact .inl (hostResume_next h).choose_spec.2
  · cases h
    rcases State.stillServing_cases (s.putString bytes 65536 (s.getReg 0)).1 c with ⟨_, e⟩ | ⟨_, e⟩
    · exact .inr (.inl e)
    · exact .inr (.inr e)

/-- The vectors that name no service (60_exceptions.md R223). -/
theorem Service.ofVector_undefined_iff :
    ∀ v : Byte, Service.ofVector v = .undefined ↔ v.toNat < 0x20 ∨ 0x25 < v.toNat := by decide

/-- The one vector that halts (60_exceptions.md R222). -/
theorem Service.ofVector_halt_iff : ∀ v : Byte, Service.ofVector v = .halt ↔ v = 0x25 := by decide

/-- What GETC and IN write: R0, and COND when the parameter says so (60_exceptions.md R217). -/
theorem State.inputChar_eq (s : State) (c : Byte) :
    s.inputChar c = s.setReg 0 (c.setWidth 16) ∨ s.inputChar c = s.writeDest 0 (c.setWidth 16) := by
  unfold State.inputChar; split <;> simp

/-- Everything a service can do when it answers (60_exceptions.md R215, R224): the core at most gets R0 and
COND from a character, the console grows, and one of the three signals is given, or the service goes on. -/
theorem hostServe_next {c : Byte} {s t : State} (h : hostServe c s = .next t) :
    ∃ v u, s.run = .trapPending v ∧
      ((∃ os, u = (s.emit os).inputChar c) ∨
        SameCore s u) ∧
      (t = u.setRun .running ∨ t = u ∨ t = u.setInputs (.serve c :: u.inputs) ∨ (v = 0x25 ∧ t = (u.setRun .halted).signal .halted) ∨
        ((v.toNat < 0x20 ∨ 0x25 < v.toNat) ∧ t = (u.setRun .aborted).signal (.fatalTrapVector v))) := by
  unfold hostServe at h
  split at h
  case h_2 => cases h
  case h_3 => cases h
  case h_4 => cases h
  next v hv =>
    have puts : ∀ bytes, servePuts c bytes s = .next t → ∃ u, SameCore s u ∧ (t = u.setRun .running ∨ t = u ∨
        t = u.setInputs (.serve c :: u.inputs) ∨ (v = 0x25 ∧ t = (u.setRun .halted).signal .halted) ∨
        ((v.toNat < 0x20 ∨ 0x25 < v.toNat) ∧ t = (u.setRun .aborted).signal (.fatalTrapVector v))) := by
      intro bytes hp
      obtain ⟨u, hu, e⟩ := servePuts_next hp
      exact ⟨u, hu, by rcases e with e | e | e <;> simp [e]⟩
    split at h
    · exact ⟨v, s.inputChar c, hv, .inl ⟨[], by simp [State.emit]⟩, .inl (hostResume_next h).choose_spec.2⟩
    · exact ⟨v, _, hv, .inr (SameCore.emit s _), .inl (hostResume_next h).choose_spec.2⟩
    · obtain ⟨u, hu, e⟩ := puts _ h; exact ⟨v, u, hv, .inr hu, e⟩
    · exact ⟨v, _, hv, .inl ⟨_, rfl⟩, .inl (hostResume_next h).choose_spec.2⟩
    · obtain ⟨u, hu, e⟩ := puts _ h; exact ⟨v, u, hv, .inr hu, e⟩
    · next hs =>
      exact ⟨v, s.emit [.haltNotice], hv, .inr (SameCore.emit s _),
        .inr (.inr (.inr (.inl ⟨(Service.ofVector_halt_iff v).1 hs, (hostHalt_next h).choose_spec.2⟩)))⟩
    · next hs =>
      obtain ⟨w, hw, e⟩ := hostAbort_next h
      rw [hv] at hw; cases hw
      exact ⟨v, s, hv, .inr (SameCore.refl s),
        .inr (.inr (.inr (.inr ⟨(Service.ofVector_undefined_iff v).1 hs, e⟩)))⟩

/-! ### The loader -/

/-- The loader's writes change memory only, and keep its canonical form (70_reset_and_hazards.md R245,
R247). -/
theorem State.writeWords_frame {ws : List Word} {a : Word} {s t : State} (h : s.writeWords a ws = .next t) :
    t = s.setMem t.mem ∧ (s.mem.wf → t.mem.wf) := by
  induction ws generalizing a s with
  | nil => simp only [State.writeWords] at h; cases h; exact ⟨rfl, id⟩
  | cons w ws ih =>
    obtain ⟨u, hu, ht⟩ := Result.andThen_next h
    obtain ⟨_, rfl⟩ := State.writeWord_next hu
    obtain ⟨e, hw⟩ := ih ht
    exact ⟨e, fun hm => hw (Memory.write_wf hm _ _)⟩

/-- The loader acts only before the first step (70_reset_and_hazards.md R243). -/
theorem hostLoad_eq (image : List Byte) (s : State) :
    (s.stepped = false → hostLoad image s = s.loadImage image) ∧
    (s.stepped = true → hostLoad image s = .refused .loadAfterFirstStep) := by
  constructor <;> intro h <;> simp [hostLoad, h]

/-- Everything the loader can do when it answers (70_reset_and_hazards.md R243 to R246). -/
theorem hostLoad_next {image : List Byte} {s t : State} (h : hostLoad image s = .next t) :
    s.stepped = false ∧
    ((∃ o ws, parseImage image = some (o, ws) ∧ s.writeWords o ws = .next t) ∨
      t = s.emit [.loadFailure]) := by
  cases hs : s.stepped with
  | true => rw [(hostLoad_eq image s).2 hs] at h; cases h
  | false =>
    refine ⟨rfl, ?_⟩
    rw [(hostLoad_eq image s).1 hs] at h
    unfold State.loadImage at h
    split at h
    · next o ws hp =>
      split at h
      · exact .inl ⟨o, ws, hp, h⟩
      · cases h; exact .inr rfl
    · cases h; exact .inr rfl

/-! ### Host actions -/

/-- What a host action other than STEP and RESET can do to the run state, PC and R7: it keeps them, but for a port
write of PC or R7; or it ends a pending TRAP (60_exceptions.md R210 to R215, R224). -/
theorem hostAct_run_and_link {i : HostInput} {s t : State} (h : hostAct i s = .next t)
    (h1 : i ≠ .reset) (h2 : i ≠ .step) :
    (t.run = s.run ∧ (i.keepsLink → t.pc = s.pc ∧ t.getReg Reg.link = s.getReg Reg.link)) ∨
    ((∃ v, s.run = .trapPending v) ∧ ∀ v, t.run ≠ .trapPending v) := by
  cases i with
  | reset => exact absurd rfl h1
  | step => exact absurd rfl h2
  | resume => obtain ⟨v, e, rfl⟩ := hostResume_next h; exact .inr ⟨⟨v, e⟩, by simp⟩
  | halt => obtain ⟨v, e, rfl⟩ := hostHalt_next h; exact .inr ⟨⟨v, e⟩, by simp⟩
  | abort => obtain ⟨v, e, rfl⟩ := hostAbort_next h; exact .inr ⟨⟨v, e⟩, by simp⟩
  | serve c =>
    obtain ⟨v, u, hv, hu, ht⟩ := hostServe_next h
    have hu' : u.run = s.run ∧ u.pc = s.pc ∧ u.getReg Reg.link = s.getReg Reg.link := by
      rcases hu with ⟨os, rfl⟩ | hu
      · rcases State.inputChar_eq (s.emit os) c with e | e <;> rw [e] <;> simp [State.getReg_setReg, Reg.link]
      · exact ⟨hu.2.2.2.2.1, hu.2.1, by simp [State.getReg, hu.1]⟩
    rcases ht with rfl | rfl | rfl | ⟨_, rfl⟩ | ⟨_, rfl⟩
    · exact .inr ⟨⟨v, hv⟩, by simp⟩
    · exact .inl ⟨hu'.1, fun _ => hu'.2⟩
    · exact .inl ⟨hu'.1, fun _ => hu'.2⟩
    · exact .inr ⟨⟨v, hv⟩, by simp⟩
    · exact .inr ⟨⟨v, hv⟩, by simp⟩
  | readReg k =>
    simp only [hostAct, hostReadReg] at h
    split at h <;> cases h
    exact .inl ⟨rfl, fun _ => ⟨rfl, rfl⟩⟩
  | writeReg k v =>
    simp only [hostAct, hostWriteReg] at h
    split at h <;> cases h
    next e =>
    simp only [State.writeCell] at e
    split at e
    · cases e
      refine .inl ⟨rfl, fun hk => ⟨rfl, State.getReg_setReg_of_ne _ _ ?_⟩⟩
      exact fun e => hk.1 (congrArg Fin.val e).symm
    · split at e
      · cases e; exact .inl ⟨rfl, fun hk => absurd ‹_› hk.2⟩
      · split at e <;> cases e; exact .inl ⟨rfl, fun _ => ⟨rfl, rfl⟩⟩
  | readMem a => simp only [hostAct, hostReadMem] at h; cases h; exact .inl (by simp)
  | writeMem a v => obtain ⟨_, rfl⟩ := State.writeWord_next h; exact .inl ⟨rfl, fun _ => ⟨rfl, rfl⟩⟩
  | load im =>
    rcases (hostLoad_next h).2 with ⟨o, ws, _, h⟩ | rfl
    · rw [(State.writeWords_frame h).1]; exact .inl ⟨rfl, fun _ => ⟨rfl, rfl⟩⟩
    · exact .inl ⟨rfl, fun _ => ⟨rfl, rfl⟩⟩

/-! ### The transition -/

/-- The transition takes the oldest pending host action that is not held, or idles. -/
theorem step_idle {s : State} (h : s.due = []) : step s = idleStep s := by simp [step, transition, h]

theorem step_due {s : State} {i : HostInput} {rest : List HostInput} (h : s.due = i :: rest) :
    step s = hostAct i (s.setInputs (s.held ++ rest)) := by simp [step, transition, h]

theorem step_nil {s : State} (h : s.inputs = []) : step s = idleStep s :=
  step_idle (List.append_eq_nil_iff.1 (s.held_append_due.trans h)).2

/-- Outside TRAP_PENDING the oldest pending action is taken, whatever it is. -/
theorem step_cons {s : State} {i : HostInput} {rest : List HostInput} (hr : ∀ v, s.run ≠ .trapPending v)
    (h : s.inputs = i :: rest) : step s = hostAct i (s.setInputs rest) := by
  obtain ⟨hh, hd⟩ := s.due_of_not_pending hr
  rw [step_due (hd.trans h), hh, List.nil_append]

/-- In every run state an action other than STEP that stands first is taken. -/
theorem step_head {s : State} {i : HostInput} {rest : List HostInput} (h : s.inputs = i :: rest)
    (hi : i ≠ .step) : step s = hostAct i (s.setInputs rest) := by
  obtain ⟨hh, hd⟩ := s.due_of_head h hi
  rw [step_due hd, hh, List.nil_append]

theorem coreStep_running {s : State} (h : s.run = .running) : coreStep s = runInstr s := by
  simp [coreStep, h]

theorem idleStep_running {s : State} (h : s.run = .running) : idleStep s = runInstr s := by
  simp [idleStep, h, coreStep_running h]

/-- A core step that answers runs an instruction in RUNNING and holds in every other run state. -/
theorem coreStep_next {s t : State} (h : coreStep s = .next t) :
    (s.run = .running ∧ runInstr s = .next t) ∨ (s.run ≠ .running ∧ t = s) := by
  cases hr : s.run with
  | running => rw [coreStep_running hr] at h; exact .inl ⟨rfl, h⟩
  | trapPending v => simp [coreStep, hr] at h; simp [h]
  | halted => simp [coreStep, hr] at h; simp [h]
  | aborted => simp [coreStep, hr] at h; simp [h]

/-- Everything a step that answers can have done: a core step, or the one host action that is due. -/
theorem step_next {s t : State} (h : step s = .next t) :
    (s.due = [] ∧ coreStep s = .next t) ∨
      ∃ i rest, s.due = i :: rest ∧ hostAct i (s.setInputs (s.held ++ rest)) = .next t := by
  cases hi : s.due with
  | cons i rest => rw [step_due hi] at h; exact .inr ⟨i, rest, rfl, h⟩
  | nil =>
    rw [step_idle hi] at h
    refine .inl ⟨rfl, ?_⟩
    unfold idleStep at h
    split at h
    · cases h
    · exact h
    · exact h
    · exact h

end Sys2Proof.Machine
end

