-- ==== Sys2Proof/Laws/Exec.lean ====
section
/-! SUPPORT. What executing an instruction can change, said once for all instructions, and the fetch. -/

namespace Sys2Proof.Machine

/-- Everything an instruction that answers can have changed. The host's fields and the parameters stay; memory
is as it was or has one word written; COND is as it was or derived from a value; the run state stays, with at
most one event, or a TRAP is pending with R7 at the address PC holds. -/
theorem exec_next {i : Instr} {s t : State} (h : exec i s = .next t) :
    t.params = s.params ∧ t.stepped = s.stepped ∧ t.inputs = s.inputs ∧ t.output = s.output ∧
    (t.mem = s.mem ∨ ∃ a v, t.mem = s.mem.write a v) ∧
    (t.cond = s.cond ∨ ∃ v, t.cond = condOf v) ∧
    ((t.run = s.run ∧ (t.events = s.events ∨ ∃ e, t.events = s.events ++ [e])) ∨
      ∃ v, i = .trap v ∧ t = s.enterTrap v) := by
  cases i <;> simp only [exec] at h
  case br n z p off => cases h; split <;> simp
  case st sr off => obtain ⟨_, rfl⟩ := State.writeWord_next h; exact ⟨rfl, rfl, rfl, rfl, .inr ⟨_, _, rfl⟩, by simp⟩
  case str sr base off =>
    obtain ⟨_, rfl⟩ := State.writeWord_next h; exact ⟨rfl, rfl, rfl, rfl, .inr ⟨_, _, rfl⟩, by simp⟩
  case sti sr off =>
    obtain ⟨_, rfl⟩ := State.writeWord_next h
    exact ⟨by simp [State.afterPointer], by simp [State.afterPointer], by simp [State.afterPointer],
      by simp [State.afterPointer], .inr ⟨_, _, by simp [State.afterPointer]; rfl⟩, by simp [State.afterPointer]⟩
  case trap vect => cases h; exact ⟨rfl, rfl, rfl, rfl, .inl rfl, .inl rfl, .inr ⟨vect, rfl, rfl⟩⟩
  case jmp base => cases h; simp
  case jsr off => cases h; simp
  case jsrr base => cases h; simp
  case rti ir => cases h; simp
  case res ir => cases h; simp
  all_goals
    cases h
    exact ⟨by simp [State.loadFrom, State.afterPointer], by simp [State.loadFrom, State.afterPointer],
      by simp [State.loadFrom, State.afterPointer], by simp [State.loadFrom, State.afterPointer],
      by simp [State.loadFrom, State.afterPointer], .inr ⟨_, rfl⟩, by simp [State.loadFrom, State.afterPointer]⟩

/-- The state an instruction starts from differs from the one before the fetch in PC, the draw counter and
the boot stage only (30_encoding.md R90). -/
theorem State.afterFetch_fields (s : State) :
    s.afterFetch.regs = s.regs ∧ s.afterFetch.pc = s.pc + 1 ∧ s.afterFetch.cond = s.cond ∧
    s.afterFetch.mem = s.mem ∧ s.afterFetch.run = s.run ∧ s.afterFetch.params = s.params ∧
    s.afterFetch.stepped = true ∧ s.afterFetch.inputs = s.inputs ∧ s.afterFetch.events = s.events ∧ s.afterFetch.output = s.output := by
  simp [State.afterFetch]

end Sys2Proof.Machine
end

