-- ==== Sys2Proof/Laws/PerInstr.lean ====
section
/-! SUPPORT. Laws made instruction by instruction. -/

namespace Sys2Proof.Laws

/-- A word whose four top bits are `op` has the opcode that `op` stands for. -/
theorem of_bits {w : Word} {op : BitVec 4} {o : Opcode} (ho : Opcode.ofBits op = o)
    (h : ∀ i, i < 4 → w.getLsbD (12 + i) = op.getLsbD i) : Opcode.ofBits (opcodeBits w) = o := by
  rw [opcodeBits, extract_of_bits w 12 op h, ho]

theorem lt_four {i : Nat} (h : i < 4) : i = 0 ∨ i = 1 ∨ i = 2 ∨ i = 3 := by omega

end Sys2Proof.Laws

namespace Sys2Proof.Laws.EncodeOpcode

/-- The word an instruction is encoded as carries its own opcode number in IR[15:12] (30_encoding.md R71,
R72). -/
def Statement (i : Instr) : Prop :=
  i.wellFormed = true → Opcode.ofBits (opcodeBits (encode i)) = i.opcode

theorem br (n z p : Bool) (off : BitVec 9) : Statement (.br n z p off) := fun _ =>
  of_bits (op := 0#4) rfl fun i hi => by
    rcases lt_four hi with rfl | rfl | rfl | rfl <;> simp only [encode, BitVec.getLsbD_or, getLsbD_place] <;> simp

theorem addReg (dr sr1 sr2 : Reg) : Statement (.addReg dr sr1 sr2) := fun _ =>
  of_bits (op := 1#4) rfl fun i hi => by
    rcases lt_four hi with rfl | rfl | rfl | rfl <;> simp only [encode, BitVec.getLsbD_or, getLsbD_place] <;> simp

theorem addImm (dr sr1 : Reg) (imm : BitVec 5) : Statement (.addImm dr sr1 imm) := fun _ =>
  of_bits (op := 1#4) rfl fun i hi => by
    rcases lt_four hi with rfl | rfl | rfl | rfl <;> simp only [encode, BitVec.getLsbD_or, getLsbD_place] <;> simp

theorem ld (dr : Reg) (off : BitVec 9) : Statement (.ld dr off) := fun _ =>
  of_bits (op := 2#4) rfl fun i hi => by
    rcases lt_four hi with rfl | rfl | rfl | rfl <;> simp only [encode, BitVec.getLsbD_or, getLsbD_place] <;> simp

theorem st (sr : Reg) (off : BitVec 9) : Statement (.st sr off) := fun _ =>
  of_bits (op := 3#4) rfl fun i hi => by
    rcases lt_four hi with rfl | rfl | rfl | rfl <;> simp only [encode, BitVec.getLsbD_or, getLsbD_place] <;> simp

theorem jsr (off : BitVec 11) : Statement (.jsr off) := fun _ =>
  of_bits (op := 4#4) rfl fun i hi => by
    rcases lt_four hi with rfl | rfl | rfl | rfl <;> simp only [encode, BitVec.getLsbD_or, getLsbD_place] <;> simp

theorem jsrr (base : Reg) : Statement (.jsrr base) := fun _ =>
  of_bits (op := 4#4) rfl fun i hi => by
    rcases lt_four hi with rfl | rfl | rfl | rfl <;> simp only [encode, BitVec.getLsbD_or, getLsbD_place] <;> simp

theorem andReg (dr sr1 sr2 : Reg) : Statement (.andReg dr sr1 sr2) := fun _ =>
  of_bits (op := 5#4) rfl fun i hi => by
    rcases lt_four hi with rfl | rfl | rfl | rfl <;> simp only [encode, BitVec.getLsbD_or, getLsbD_place] <;> simp

theorem andImm (dr sr1 : Reg) (imm : BitVec 5) : Statement (.andImm dr sr1 imm) := fun _ =>
  of_bits (op := 5#4) rfl fun i hi => by
    rcases lt_four hi with rfl | rfl | rfl | rfl <;> simp only [encode, BitVec.getLsbD_or, getLsbD_place] <;> simp

theorem ldr (dr base : Reg) (off : BitVec 6) : Statement (.ldr dr base off) := fun _ =>
  of_bits (op := 6#4) rfl fun i hi => by
    rcases lt_four hi with rfl | rfl | rfl | rfl <;> simp only [encode, BitVec.getLsbD_or, getLsbD_place] <;> simp

theorem str (sr base : Reg) (off : BitVec 6) : Statement (.str sr base off) := fun _ =>
  of_bits (op := 7#4) rfl fun i hi => by
    rcases lt_four hi with rfl | rfl | rfl | rfl <;> simp only [encode, BitVec.getLsbD_or, getLsbD_place] <;> simp

theorem rti (ir : Word) : Statement (.rti ir) := by
  intro h
  rw [encode, eq_of_beq (show (opcodeBits ir == 8#4) = true from h)]; rfl

theorem not (dr sr : Reg) : Statement (.not dr sr) := fun _ =>
  of_bits (op := 9#4) rfl fun i hi => by
    rcases lt_four hi with rfl | rfl | rfl | rfl <;> simp only [encode, BitVec.getLsbD_or, getLsbD_place] <;> simp

theorem ldi (dr : Reg) (off : BitVec 9) : Statement (.ldi dr off) := fun _ =>
  of_bits (op := 10#4) rfl fun i hi => by
    rcases lt_four hi with rfl | rfl | rfl | rfl <;> simp only [encode, BitVec.getLsbD_or, getLsbD_place] <;> simp

theorem sti (sr : Reg) (off : BitVec 9) : Statement (.sti sr off) := fun _ =>
  of_bits (op := 11#4) rfl fun i hi => by
    rcases lt_four hi with rfl | rfl | rfl | rfl <;> simp only [encode, BitVec.getLsbD_or, getLsbD_place] <;> simp

theorem jmp (base : Reg) : Statement (.jmp base) := fun _ =>
  of_bits (op := 12#4) rfl fun i hi => by
    rcases lt_four hi with rfl | rfl | rfl | rfl <;> simp only [encode, BitVec.getLsbD_or, getLsbD_place] <;> simp

theorem res (ir : Word) : Statement (.res ir) := by
  intro h
  rw [encode, eq_of_beq (show (opcodeBits ir == 13#4) = true from h)]; rfl

theorem lea (dr : Reg) (off : BitVec 9) : Statement (.lea dr off) := fun _ =>
  of_bits (op := 14#4) rfl fun i hi => by
    rcases lt_four hi with rfl | rfl | rfl | rfl <;> simp only [encode, BitVec.getLsbD_or, getLsbD_place] <;> simp

theorem trap (vect : Byte) : Statement (.trap vect) := fun _ =>
  of_bits (op := 15#4) rfl fun i hi => by
    rcases lt_four hi with rfl | rfl | rfl | rfl <;> simp only [encode, BitVec.getLsbD_or, getLsbD_place] <;> simp

end Sys2Proof.Laws.EncodeOpcode
end

