-- ==== Sys2Proof/Tests/Slice0.lean ====
section
/-! SUPPORT. The model's own tests: ill-formed terms are refused, a word of every form written out from the
spec's encoding decodes to its instruction, single steps from spec/95_test_vectors.md, and for every statement
with hypotheses a state that meets them. -/

namespace Sys2Proof.Tests

open Sys2Proof.Machine

/-! ## Well-formedness: one ill-formed term for each check -/

theorem test_rti_with_another_opcode_refused : (Instr.rti 0x9000).wellFormed = false := by decide
theorem test_res_with_another_opcode_refused : (Instr.res 0x8000).wellFormed = false := by decide
theorem test_rti_and_res_accepted :
    (Instr.rti 0x8FFF).wellFormed = true ∧ (Instr.res 0xD123).wellFormed = true := by decide

/-! ## Decoding: words written out bit by bit from 30_encoding.md R73 -/

theorem test_decode_br : decode 0b0000_010_000000100 = .br false true false 4 := by decide
theorem test_decode_br_np_backward : decode 0b0000_101_111111110 = .br true false true 0b111111110 := by decide
theorem test_decode_addReg : decode 0b0001_010_000_0_00_001 = .addReg 2 0 1 := by decide
theorem test_decode_addReg_ignores_bits_4_3 : decode 0b0001_010_000_0_11_001 = .addReg 2 0 1 := by decide
theorem test_decode_addImm : decode 0b0001_001_000_1_10000 = .addImm 1 0 0b10000 := by decide
theorem test_decode_ld : decode 0b0010_001_000000010 = .ld 1 2 := by decide
theorem test_decode_st : decode 0b0011_001_111111111 = .st 1 0b111111111 := by decide
theorem test_decode_jsr : decode 0b0100_1_10000000000 = .jsr 0b10000000000 := by decide
theorem test_decode_jsrr : decode 0b0100_0_00_011_000000 = .jsrr 3 := by decide
theorem test_decode_jsrr_ignored_bits : decode 0b0100_0_11_011_111111 = .jsrr 3 := by decide
theorem test_decode_andReg : decode 0b0101_010_000_0_00_001 = .andReg 2 0 1 := by decide
theorem test_decode_andImm : decode 0b0101_111_111_1_11111 = .andImm 7 7 0b11111 := by decide
theorem test_decode_ldr : decode 0b0110_001_010_111101 = .ldr 1 2 0b111101 := by decide
theorem test_decode_str : decode 0b0111_001_010_000101 = .str 1 2 5 := by decide
theorem test_decode_rti : decode 0b1000_111111111111 = .rti 0x8FFF := by decide
theorem test_decode_not : decode 0b1001_001_010_111111 = .not 1 2 := by decide
theorem test_decode_not_ignored_bits : decode 0b1001_001_010_000000 = .not 1 2 := by decide
theorem test_decode_ldi : decode 0b1010_011_000000001 = .ldi 3 1 := by decide
theorem test_decode_sti : decode 0b1011_001_000000001 = .sti 1 1 := by decide
theorem test_decode_jmp_ret : decode 0b1100_000_111_000000 = .jmp 7 := by decide
theorem test_decode_jmp_ignored_bits : decode 0xCEFF = .jmp 3 := by decide
theorem test_decode_res : decode 0b1101_000100100011 = .res 0xD123 := by decide
theorem test_decode_lea : decode 0b1110_001_111111110 = .lea 1 0b111111110 := by decide
theorem test_decode_trap : decode 0b1111_0000_00100101 = .trap 0x25 := by decide
theorem test_decode_trap_ignored_bits : decode 0b1111_1111_00100101 = .trap 0x25 := by decide

/-- The assembler's words of 30_encoding.md R87 and 40_operate.md R108. -/
theorem test_encode_samples :
    encode (.jmp 7) = 0xC1C0 ∧ encode (.trap 0x25) = 0xF025 ∧ encode (.not 1 2) = 0x92BF ∧
    encode (.br false false false 0) = 0x0000 ∧ encode (.addImm 2 0 3) = 0x1423 := by decide

/-! ## Single steps: the vectors of 95_test_vectors.md -/

/-- A machine in RUNNING about to run the word at `pc`. -/
def machineAt (pc cond : Word) (regs : Vector Word 8) (mem : List (Nat × Word)) (p : Params) : State :=
  { State.reset with pc := pc, cond := cond, regs := regs, mem := mem, params := p }

/-- The default parameters with GETC and IN leaving COND alone. -/
def plain : Params := { kbdMmio := none, trapInputSetsFlags := false, jsrrLinkFirst := true }

/-- What a test looks at after one step: a register, COND, PC and a memory word. -/
def seen (s : State) (r : Reg) (a : Word) : Option (Word × Word × Word × Word) :=
  match step s with
  | .next t => some (t.getReg r, t.cond, t.pc, t.mem.read a)
  | .fault _ => none
  | .refused _ => none

/-- The run state and the events after one step. -/
def outcome (s : State) : Option (RunState × List Event) :=
  match step s with
  | .next t => some (t.run, t.events)
  | .fault _ => none
  | .refused _ => none

/-- The host's output after one step. -/
def printed (s : State) : Option (List HostOutput) :=
  match step s with
  | .next t => some t.output
  | .fault _ => none
  | .refused _ => none

/-- ADD reg, signed overflow (section 2.3). -/
theorem test_addReg_overflow_is_neg :
    seen (machineAt 0x3000 2 #v[0x7FFF, 1, 0, 0, 0, 0, 0, 0] [(0x3000, 0x1401)] plain) 2 0 =
      some (0x8000, 0x0004, 0x3001, 0) := by decide

/-- ADD, DR = SR1 = SR2 (section 2.3). -/
theorem test_addReg_doubles_in_place :
    seen (machineAt 0x3000 2 #v[0, 0x4000, 0, 0, 0, 0, 0, 0] [(0x3000, 0x1241)] plain) 1 0 =
      some (0x8000, 0x0004, 0x3001, 0) := by decide

/-- ADD imm in place, -1 from 0 (section 2.3). -/
theorem test_addImm_decrement_wraps :
    seen (machineAt 0x3000 2 #v[0, 0, 0, 0, 0, 0, 0, 0] [(0x3000, 0x127F)] plain) 1 0 =
      some (0xFFFF, 0x0004, 0x3001, 0) := by decide

/-- AND reg, negative result (section 2.3). -/
theorem test_andReg_negative :
    seen (machineAt 0x3000 1 #v[0x8001, 0xF000, 0, 0, 0, 0, 0, 0] [(0x3000, 0x5401)] plain) 2 0 =
      some (0x8000, 0x0004, 0x3001, 0) := by decide

/-- AND imm #-16 keeps the high bits (section 2.3). -/
theorem test_andImm_sign_extends :
    seen (machineAt 0x3000 2 #v[0x1234, 0, 0, 0, 0, 0, 0, 0] [(0x3000, 0x5430)] plain) 2 0 =
      some (0x1230, 0x0001, 0x3001, 0) := by decide

/-- NOT of FFFF (section 2.3). -/
theorem test_not_of_ones_is_zero :
    seen (machineAt 0x3000 1 #v[0, 0, 0xFFFF, 0, 0, 0, 0, 0] [(0x3000, 0x92BF)] plain) 1 0 =
      some (0x0000, 0x0002, 0x3001, 0) := by decide

/-- BRnp #4 with COND = ZRO is not taken; BRz #4 is (section 2.4). -/
theorem test_br_tests_the_mask :
    seen (machineAt 0x3000 2 #v[0, 0, 0, 0, 0, 0, 0, 0] [(0x3000, 0x0A04)] plain) 0 0 =
      some (0, 2, 0x3001, 0) ∧
    seen (machineAt 0x3000 2 #v[0, 0, 0, 0, 0, 0, 0, 0] [(0x3000, 0x0404)] plain) 0 0 =
      some (0, 2, 0x3005, 0) := by decide

/-- BRnzp #-2 at 0000 wraps below 0, BRnzp #1 at FFFF above FFFF (section 2.4). -/
theorem test_br_target_wraps :
    seen (machineAt 0x0000 4 #v[0, 0, 0, 0, 0, 0, 0, 0] [(0x0000, 0x0FFE)] plain) 0 1 =
      some (0, 4, 0xFFFF, 0) ∧
    seen (machineAt 0xFFFF 1 #v[0, 0, 0, 0, 0, 0, 0, 0] [(0xFFFF, 0x0E01)] plain) 0 1 =
      some (0, 1, 0x0001, 0) := by decide

/-- JMP with ignored bits set (section 2.5). -/
theorem test_jmp_reads_base :
    seen (machineAt 0x3000 2 #v[0, 0, 0, 0x4000, 0, 0, 0, 0] [(0x3000, 0xCEFF)] plain) 7 0 =
      some (0, 2, 0x4000, 0) := by decide

/-- JSR -1024 (section 2.5). -/
theorem test_jsr_far_back :
    seen (machineAt 0x3000 2 #v[0, 0, 0, 0, 0, 0, 0, 0] [(0x3000, 0x4C00)] plain) 7 0 =
      some (0x3001, 2, 0x2C01, 0) := by decide

/-- JSR at FFFF (section 2.5). -/
theorem test_jsr_at_the_top :
    seen (machineAt 0xFFFF 2 #v[0, 0, 0, 0, 0, 0, 0, 5] [(0xFFFF, 0x4800)] plain) 7 0 =
      some (0x0000, 2, 0x0000, 0) := by decide

/-- JSRR R7 under both values of jsrr_link_first (section 2.5). -/
theorem test_jsrr_r7_order :
    seen (machineAt 0x3000 2 #v[0, 0, 0, 0, 0, 0, 0, 0x1234] [(0x3000, 0x41C0)] plain) 7 0 =
      some (0x3001, 2, 0x3001, 0) ∧
    seen (machineAt 0x3000 2 #v[0, 0, 0, 0, 0, 0, 0, 0x1234] [(0x3000, 0x41C0)]
      { plain with jsrrLinkFirst := false }) 7 0 = some (0x3001, 2, 0x1234, 0) := by decide

/-- LD of its own word (section 2.6). -/
theorem test_ld_own_word :
    seen (machineAt 0x3000 2 #v[0, 0, 0, 0, 0, 0, 0, 0] [(0x3000, 0x23FF)] plain) 1 0 =
      some (0x23FF, 1, 0x3001, 0) := by decide

/-- LDI at 2FFF (section 1, E3 with the corrections C1 and C2 of 90_conflicts.md: NEG). -/
theorem test_ldi_double_indirection :
    seen (machineAt 0x2FFF 2 #v[0, 0, 0, 0, 0, 0, 0, 0]
      [(0x2FFF, 0xA601), (0x3001, 0x4000), (0x4000, 0xABCD)] plain) 3 0 =
      some (0xABCD, 0x0004, 0x3000, 0) := by decide

/-- LDR, largest offset, wraps above FFFF (section 2.6). -/
theorem test_ldr_wraps :
    seen (machineAt 0x3000 2 #v[0, 0, 0xFFF0, 0, 0, 0, 0, 0] [(0x000F, 0x0042), (0x3000, 0x629F)] plain) 1 0 =
      some (0x0042, 1, 0x3001, 0) := by decide

/-- LDR, DR = BaseR (section 2.6). -/
theorem test_ldr_base_is_destination :
    seen (machineAt 0x3000 2 #v[0, 0, 0x4000, 0, 0, 0, 0, 0] [(0x3000, 0x6480), (0x4000, 0x1234)] plain) 2 0 =
      some (0x1234, 1, 0x3001, 0) := by decide

/-- LEA to address 0 sets ZRO (section 2.6). -/
theorem test_lea_flags_from_the_address :
    seen (machineAt 0x0000 4 #v[0, 7, 0, 0, 0, 0, 0, 0] [(0x0000, 0xE3FF)] plain) 1 1 =
      some (0x0000, 0x0002, 0x0001, 0) := by decide

/-- ST leaves COND (section 2.7). -/
theorem test_st_keeps_flags :
    seen (machineAt 0x3000 4 #v[0, 0x1234, 0, 0, 0, 0, 0, 0] [(0x3000, 0x3202)] plain) 1 0x3003 =
      some (0x1234, 4, 0x3001, 0x1234) := by decide

/-- ST of 0 onto itself: the listed word is gone and reads 0 (section 2.7). -/
theorem test_st_zero_onto_itself :
    seen (machineAt 0x3000 4 #v[0, 0, 0, 0, 0, 0, 0, 0] [(0x3000, 0x33FF)] plain) 1 0x3000 =
      some (0, 4, 0x3001, 0) := by decide

/-- STI, pointer to itself (section 2.7). -/
theorem test_sti_pointer_to_itself :
    seen (machineAt 0x3000 1 #v[0, 0x00AA, 0, 0, 0, 0, 0, 0] [(0x3000, 0xB201), (0x3002, 0x3002)] plain) 1 0x3002 =
      some (0x00AA, 1, 0x3001, 0x00AA) := by decide

/-- STR wraps above FFFF (section 2.7). -/
theorem test_str_wraps :
    seen (machineAt 0x3000 1 #v[0, 1, 0xFFFE, 0, 0, 0, 0, 0] [(0x3000, 0x7285)] plain) 2 0x0003 =
      some (0xFFFE, 1, 0x3001, 0x0001) := by decide

/-- TRAP at FFFF (section 2.8). -/
theorem test_trap_at_the_top :
    seen (machineAt 0xFFFF 1 #v[0, 0, 0, 0, 0, 0, 0, 5] [(0xFFFF, 0xF020)] plain) 7 0 =
      some (0x0000, 1, 0x0000, 0) := by decide

/-- TRAP, IR[11:8] ignored (section 2.8). -/
theorem test_trap_pends_the_vector :
    outcome (machineAt 0x3000 1 #v[0, 0, 0, 0, 0, 0, 0, 5] [(0x3000, 0xFF25)] plain) =
      some (.trapPending 0x25, [.trapReq 0x25]) := by decide

/-- RTI, other bits (section 2.8); at FFFF the reported address is FFFF (43_system.md R170). -/
theorem test_rti_reports_its_word :
    outcome (machineAt 0xFFFF 4 #v[0, 0, 0, 0, 0, 0, 0, 0] [(0xFFFF, 0x8FFF)] plain) =
      some (.running, [.diagRti 0xFFFF 0x8FFF]) := by decide

/-- RES (section 2.8). -/
theorem test_res_reports_its_word :
    outcome (machineAt 0x3000 1 #v[0, 0, 0, 0, 0, 0, 0, 0] [(0x3000, 0xD123)] plain) =
      some (.running, [.diagRes 0x3000 0xD123]) := by decide

/-- A core with a pending TRAP whose host gives one answer. -/
def pendingAt (vect : Byte) (r0 : Word) (mem : List (Nat × Word)) (p : Params) (answer : HostInput) : State :=
  { machineAt 0x3001 1 #v[r0, 0, 0, 0, 0, 0, 0, 0x3001] mem p with
    run := .trapPending vect, inputs := [answer] }

/-- GETC of 80: zero-extended; COND POS if the parameter is true (section 2.8). -/
theorem test_getc_zero_extends :
    seen (pendingAt 0x20 9 [] plain (.serve 0x80)) 0 0 = some (0x0080, 1, 0x3001, 0) ∧
    seen (pendingAt 0x20 9 [] { plain with trapInputSetsFlags := true } (.serve 0)) 0 0 =
      some (0x0000, 0x0002, 0x3001, 0) := by decide

/-- PUTS (section 2.8). -/
theorem test_puts_low_bytes :
    printed (pendingAt 0x22 0x4000 [(0x4000, 0x0048), (0x4001, 0x0169)] plain (.serve 0)) =
      some [.console 0x48, .console 0x69] := by decide

/-- PUTSP (section 2.8). -/
theorem test_putsp_packed :
    printed (pendingAt 0x24 0x4000 [(0x4000, 0x6948), (0x4001, 0x0021)] plain (.serve 0)) =
      some [.console 0x48, .console 0x69, .console 0x21] := by decide

/-- HALT and an undefined vector (section 2.8). -/
theorem test_halt_and_undefined_vector :
    outcome (pendingAt 0x25 0 [] plain (.serve 0)) = some (.halted, [.halted]) ∧
    outcome (pendingAt 0x26 0 [] plain (.serve 0)) = some (.aborted, [.fatalTrapVector 0x26]) := by decide

/-- Program load (section 1, E6): two words; an odd payload; an image past FFFF. -/
theorem test_load_vectors :
    seen { State.reset with inputs := [.load [0x30, 0x00, 0x12, 0x34, 0xAB, 0xCD]] } 0 0x3001 =
      some (0, 2, 0x3000, 0xABCD) ∧
    printed { State.reset with inputs := [.load [0x30, 0x00, 0x12, 0x34, 0xAB]] } = some [.loadFailure] ∧
    printed { State.reset with inputs := [.load [0xFF, 0xFF, 0, 1, 0, 2]] } = some [.loadFailure] := by
  decide

/-- A load after the first step is refused, and after a RESET it is taken again (70_reset_and_hazards.md R243,
R242; log 18). -/
theorem test_load_only_before_the_first_step :
    printed { State.reset with stepped := true, inputs := [.load [0x30]] } = none ∧
    printed { State.reset.resetSignal with inputs := [.load [0x30]] } = some [.loadFailure] := by decide

/-- A STEP requested in TRAP_PENDING waits for the answer (92_eei_decisions.md D28). -/
theorem test_step_held_while_a_trap_is_pending :
    (match step { State.reset with run := .trapPending 0x21, inputs := [.step, .resume, .reset] } with
      | .next t => some (t.run, t.inputs)
      | .fault _ => none
      | .refused _ => none) = some (.running, [.step, .reset]) := by decide

/-- The memory port wraps (section 1, E5). -/
theorem test_memory_port_wraps :
    seen { State.reset with inputs := [.writeMem 0x10000 0x1234] } 0 0 = some (0, 2, 0x3000, 0x1234) := by
  decide

/-! ## Witnesses: for every statement with hypotheses, states and operands that meet them, clause by clause -/

/-- Reset with a keyboard pair wired at 0x3001 and 0x3002. -/
def wired : State := { State.reset with params := { plain with kbdMmio := some (0x3001, 0x3002) } }

/-- Reset with a word at PC. -/
def ready (w : Word) : State := { State.reset with mem := [(0x3000, w)] }

/-- Reset with pending host actions. -/
def asked (is : List HostInput) : State := { State.reset with inputs := is }

theorem witness_EncodedInstructionDecodesBack :
    (Instr.res 0xDFFF).wellFormed = true ∧ (Instr.rti 0x8000).wellFormed = true ∧
    (Instr.br true true true 0b100000000).wellFormed = true := by decide

theorem witness_IgnoredBitsDoNotChangeDecoding :
    0x1401#16 &&& (decode 0x1401).namedBits = 0x1419#16 &&& (decode 0x1401).namedBits ∧
    (decode 0x1401).form ≠ .rti ∧ (decode 0x1401).form ≠ .res ∧
    0x8000#16 &&& (decode 0x8000).namedBits = 0x8FFF#16 &&& (decode 0x8000).namedBits := by decide

theorem witness_SignExtensionOrsTheMask :
    (0x0001#16).getLsbD (1 - 1) = true ∧ (0x4000#16).getLsbD (15 - 1) = true ∧
    (0x8000#16).getLsbD (5 - 1) = false ∧ (0x001F#16).toNat < 2 ^ 5 ∧ (0x7FFF#16).toNat < 2 ^ 15 ∧ 16 ≤ 16 := by
  decide

theorem witness_AddressesWrapAndNoAccessFaults :
    State.reset.run = .running ∧ State.reset.inputs = [] ∧ State.reset.params.kbdMmio = none :=
  ⟨rfl, rfl, rfl⟩

theorem witness_StepRunsTheDecodedInstruction :
    (State.reset.run = .running ∧ State.reset.inputs = [] ∧ State.reset.isKeyboard State.reset.pc = false) ∧
    ((asked [.step]).run = .running ∧ (asked [.step]).inputs = .step :: []) := ⟨⟨rfl, rfl, rfl⟩, rfl, rfl⟩

theorem witness_OnlyControlTransfersWritePc :
    (State.reset.run = .running ∧ State.reset.inputs = [] ∧ (asked [.step]).inputs = .step :: []) ∧
    State.reset.branchTaken false true false = true ∧ State.reset.params.jsrrLinkFirst = true ∧
    ({ plain with jsrrLinkFirst := false } : Params).jsrrLinkFirst = false ∧
    (State.reset.setPc 0xFFFF).pc = 0xFFFF ∧
    exec (.st 0 0) State.reset = .next (State.reset.setMem (State.reset.mem.write 0x3000 0)) ∧
    exec (.br true false true 5) State.reset = .next State.reset ∧
    State.reset.branchTaken true false true = false :=
  ⟨⟨rfl, rfl, rfl⟩, by decide, rfl, rfl, rfl, rfl, rfl, by decide⟩

theorem witness_NonRunningCoreExecutesNothing :
    ((asked [.step]).setRun .halted).run = .halted ∧ ((asked [.step]).setRun .halted).inputs = .step :: [] ∧
    ((asked [.step]).setRun .aborted).run = .aborted ∧ ((asked [.step]).setRun .aborted).inputs = .step :: [] ∧
    (State.reset.setRun (.trapPending 0x20)).inputs = List.replicate 0 .step ∧
    ((asked [.step, .step]).setRun (.trapPending 0x20)).inputs = List.replicate 2 .step ∧
    (State.reset.setRun .halted).run = .halted ∧ (State.reset.setRun .aborted).run = .aborted ∧
    State.reset.inputs = [] := by decide

theorem witness_FlagsFollowTheSign :
    (0x8000#16).toInt < 0 ∧ (0xFFFF#16).toInt < 0 ∧ 0 < (0x0001#16).toInt ∧ 0 < (0x7FFF#16).toInt := by decide

theorem witness_ExactlySevenInstructionsSetFlags :
    exec (.lea 3 0) State.reset = .next (State.reset.writeDest 3 0x3000) ∧
    exec (.trap 0x25) State.reset = .next (State.reset.enterTrap 0x25) ∧
    (Instr.trap 0x25).form ∈ [Form.st, .sti, .str, .br, .jmp, .jsr, .jsrr, .trap, .rti, .res] :=
  ⟨rfl, rfl, by decide⟩

theorem witness_OperateFrame :
    exec (.addReg 7 7 7) State.reset = .next (State.reset.writeDest 7 0) ∧
    exec (.not 0 1) State.reset = .next (State.reset.writeDest 0 0xFFFF) := ⟨rfl, rfl⟩

theorem witness_SubtractionByComplement : (1 : Reg) ≠ 2 := by decide

theorem witness_BranchTestsTheRequestedFlags :
    (State.reset.cond.getLsbD 1 = true ∧ State.reset.cond.getLsbD 0 = false ∧ State.reset.cond.getLsbD 2 = false) ∧
    (State.reset.setCond 0x0007).cond.getLsbD 2 = true ∧ (State.reset.setCond 0xFFF8).cond.getLsbD 0 = false := by
  decide

theorem witness_RegisterCallFollowsTheLinkOrder :
    (6 : Reg) ≠ 7 ∧ State.reset.params.jsrrLinkFirst = true ∧
    ({ plain with jsrrLinkFirst := false } : Params).jsrrLinkFirst = false := ⟨by decide, rfl, rfl⟩

theorem witness_ControlFrame :
    exec (.jmp 0) State.reset = .next (State.reset.setPc 0) ∧ (Instr.jmp 0).form = .jmp ∧
    exec (.jsr 0) State.reset = .next (State.reset.setReg 7 0x3000) ∧ (Instr.jsr 0).form = .jsr :=
  ⟨rfl, rfl, rfl, rfl⟩

theorem witness_ReturnContinuesAfterTheCall :
    (Instr.jsr 0).form = .jsr ∧ exec (.jsr 0) State.reset = .next (State.reset.setReg 7 0x3000) ∧
    exec (.jmp 7) (State.reset.setReg 7 0x3000) = .next (State.reset.setReg 7 0x3000) := ⟨rfl, rfl, rfl⟩

theorem witness_LoadsWriteTheAddressedWord :
    State.reset.isKeyboard (State.reset.pc + (0b100000000#9).signExtend 16) = false := rfl

/-- The pointer word is a wired keyboard word whose answer is, or is not, the other keyboard word. -/
theorem witness_IndirectLoadThroughTheKeyboard :
    (∃ s : State, s.isKeyboard (s.pc + (0#9).signExtend 16) = true ∧
      s.isKeyboard (Config.hostRead s.draws) = true) ∧
    (∃ s : State, s.isKeyboard (s.pc + (0#9).signExtend 16) = true ∧
      s.isKeyboard (Config.hostRead s.draws) = false) := by
  refine ⟨⟨{ State.reset with pc := 0x3001, params := { plain with kbdMmio := some (0x3001, Config.hostRead 0) } },
    by simp [State.isKeyboard], by simp [State.isKeyboard, State.reset]⟩,
    ⟨{ State.reset with
        pc := Config.hostRead 0 + 1,
        params := { plain with kbdMmio := some (Config.hostRead 0 + 1, Config.hostRead 0 + 1) } },
    by simp [State.isKeyboard], ?_⟩⟩
  simp [State.isKeyboard, State.reset]

theorem witness_LoadFrame :
    exec (.ld 0 0) State.reset = .next (State.reset.writeDest 0 0) ∧
    exec (.ldi 1 0) State.reset = .next (State.reset.writeDest 1 0) ∧ State.reset.params.kbdMmio = none :=
  ⟨rfl, rfl, rfl⟩

theorem witness_StoresWriteOneWord :
    (State.reset.pcRelative9 0 = 0x3000 ∧ State.reset.isKeyboard 0x3000 = false) ∧
    (wired.pcRelative9 1 = 0x3001 ∧ wired.isKeyboard 0x3001 = true) ∧
    (State.reset.indirect 0 = 0 ∧ State.reset.isKeyboard 0 = false) ∧
    ((wired.setMem [(0x3000, 0x3002)]).indirect 0 = 0x3002 ∧
      (wired.setMem [(0x3000, 0x3002)]).isKeyboard 0x3002 = true) ∧
    (State.reset.baseOffset 0 0b111111 = 0xFFFF ∧ State.reset.isKeyboard 0xFFFF = false) ∧
    ((wired.setReg 2 0x3002).baseOffset 2 0 = 0x3002 ∧ (wired.setReg 2 0x3002).isKeyboard 0x3002 = true) := by
  decide

theorem witness_EffectiveAddressesAreTheTables :
    wired.isKeyboard (wired.pc + (0#9).signExtend 16) = false := by decide

theorem witness_StoreFrame :
    (Instr.st 0 0).form = .st ∧
    exec (.st 0 0) State.reset = .next (State.reset.setMem (State.reset.mem.write 0x3000 0)) ∧
    State.reset.params.kbdMmio = none := ⟨rfl, rfl, rfl⟩

theorem witness_LoadReadsBackTheStoredWord : State.reset.params.kbdMmio = none := rfl

theorem witness_StoreIsSeenByTheNextFetch :
    (ready 0x3200).run = .running ∧ (ready 0x3200).inputs = [] ∧ (ready 0x3200).params.kbdMmio = none ∧
    decode ((ready 0x3200).mem.read (ready 0x3200).pc) = .st 1 0 := ⟨rfl, rfl, rfl, by decide⟩

theorem witness_DiagnosticChangesOnlyThePc :
    (ready 0x8FFF).run = .running ∧ (ready 0x8FFF).inputs = [] ∧
    (ready 0x8FFF).isKeyboard (ready 0x8FFF).pc = false ∧
    (decode ((ready 0x8FFF).mem.read (ready 0x8FFF).pc)).form = .rti ∧
    (decode ((ready 0xD000).mem.read (ready 0xD000).pc)).form = .res :=
  ⟨rfl, rfl, rfl, by decide, by decide⟩

theorem witness_OnlyTrapLeavesTheCore :
    exec (.trap 0xFF) State.reset = .next (State.reset.enterTrap 0xFF) ∧
    (State.reset.enterTrap 0xFF).run ≠ State.reset.run := ⟨rfl, by decide⟩

theorem witness_ReadReturnsTheWordAndChangesNothing :
    State.reset.params.kbdMmio = none ∧ wired.params.kbdMmio = some (0x3001, 0x3002) := ⟨rfl, rfl⟩

theorem witness_WriteChangesOneWord :
    State.reset.params.kbdMmio = none ∧ wired.params.kbdMmio = some (0x3001, 0x3002) ∧
    (0x3003 : Word) ≠ 0x3001 ∧ (0x3003 : Word) ≠ 0x3002 := ⟨rfl, rfl, by decide, by decide⟩

theorem witness_CanonicalMemoriesThatReadAlikeAreEqual :
    Memory.wf [(0x0000, 1), (0xFFFF, 2)] ∧
    ∀ a : Word, Memory.read [(0x0000, 1), (0xFFFF, 2)] a = Memory.read [(0x0000, 1), (0xFFFF, 2)] a :=
  ⟨by decide, fun _ => rfl⟩

theorem witness_ResetKeepsRegistersAndMemory :
    ((asked [.reset, .step]).setRun .aborted).due = .reset :: [.step] ∧
    ((asked [.step, .reset]).setRun (.trapPending 0x20)).due = .reset :: [] := ⟨rfl, rfl⟩

theorem witness_StepKeepsMemoryCanonical :
    (ready 0x0000).mem = [(0x3000, 0)] ∧ (ready 0x3200).mem.wf ∧
    step (ready 0x3200) = .next (((ready 0x3200).setPc 0x3001).setStepped true) := ⟨rfl, by decide, rfl⟩

theorem witness_StepKeepsFlagsOneHot :
    (asked [.writeReg 9 0x0004]).flagsInv ∧
    step (asked [.writeReg 9 0x0004]) = .next (State.reset.setCond 0x0004) := by
  refine ⟨⟨by decide, fun i h => ?_⟩, rfl⟩
  rw [show (asked [.writeReg 9 0x0004]).inputs = [.writeReg 9 0x0004] from rfl, List.mem_singleton] at h
  subst h
  decide

theorem witness_StepKeepsPendingTrapPrecise :
    ((ready 0xF021).linkInv ∧ (∀ v, (ready 0xF021).run ≠ .trapPending v) ∧
      step (ready 0xF021) = .next ((((ready 0xF021).setPc 0x3001).setStepped true).enterTrap 0x21)) ∧
    ((pendingAt 0x20 0 [] plain (.readMem 0)).linkInv ∧
      outcome (pendingAt 0x20 0 [] plain (.readMem 0)) = some (.trapPending 0x20, [])) := by
  refine ⟨⟨⟨fun v h => (by cases h), fun i h => (by cases h)⟩, fun v h => (by cases h), rfl⟩,
    ⟨fun _ _ => rfl, fun i h => ?_⟩, by decide⟩
  rw [show (pendingAt 0x20 0 [] plain (.readMem 0)).inputs = [.readMem 0] from rfl, List.mem_singleton] at h
  subst h
  trivial

theorem witness_StepReportsAtMostOneEvent :
    step (ready 0xF021) = .next ((((ready 0xF021).setPc 0x3001).setStepped true).enterTrap 0x21) ∧
    ((((ready 0xF021).setPc 0x3001).setStepped true).enterTrap 0x21).events = (ready 0xF021).events ++ [.trapReq 0x21] :=
  ⟨rfl, rfl⟩

theorem witness_RunEndsOnlyThroughAPendingTrap :
    outcome (pendingAt 0x25 0 [] plain (.serve 0)) = some (.halted, [.halted]) ∧
    outcome (pendingAt 0x20 0 [] plain .halt) = some (.halted, [.halted]) ∧
    outcome (pendingAt 0x1F 0 [] plain (.serve 0)) = some (.aborted, [.fatalTrapVector 0x1F]) ∧
    outcome (pendingAt 0x20 0 [] plain .abort) = some (.aborted, [.fatalTrapVector 0x20]) ∧
    ((asked [.step]).setRun .halted).due.head? ≠ some .reset ∧
    outcome ((asked [.step]).setRun .halted) = some (.halted, []) ∧
    ((asked [.writeReg 0 7]).setRun .aborted).due.head? ≠ some .reset ∧
    outcome ((asked [.writeReg 0 7]).setRun .aborted) = some (.aborted, []) := by decide

theorem witness_SignalsEndAPendingTrap :
    (pendingAt 0xFF 0 [] plain .resume).run = .trapPending 0xFF ∧ (∀ v, State.reset.run ≠ .trapPending v) :=
  ⟨rfl, fun v h => by cases h⟩

theorem witness_CharacterServicesFollowTheContract :
    (∀ v ∈ [0x20#8, 0x21, 0x23, 0x25, 0x1F, 0x26], (pendingAt v 0 [] plain .resume).run = .trapPending v) ∧
    (0x1F#8).toNat < 0x20 ∧ 0x25 < (0x26#8).toNat ∧ plain.trapInputSetsFlags = false ∧
    ({ plain with trapInputSetsFlags := true } : Params).trapInputSetsFlags = true := by decide

/-- The empty string, and the longest: 65535 nonzero words from address 0, then a zero word. -/
theorem witness_StringServicesOutputUpToTheZeroWord :
    (State.reset.params.kbdMmio = none ∧ State.reset.mem.read (State.reset.getReg 0 + BitVec.ofNat 16 0) = 0) ∧
    ∃ s : State, s.params.kbdMmio = none ∧ s.run = .trapPending 0x22 ∧
      (∀ k, k < 65535 → s.mem.read (s.getReg 0 + BitVec.ofNat 16 k) ≠ 0) ∧
      s.mem.read (s.getReg 0 + BitVec.ofNat 16 65535) = 0 := by
  refine ⟨⟨rfl, rfl⟩, ?_⟩
  obtain ⟨m, hm⟩ : ∃ m : Memory, ∀ a, m.read a = if a = 0xFFFF then 0 else 1 :=
    ⟨_, (Memory.ofFn_spec fun a => if a = 0xFFFF then 0 else 1).2⟩
  refine ⟨(State.reset.setRun (.trapPending 0x22)).setMem m, rfl, rfl, fun k hk => ?_, ?_⟩
  · show m.read (0 + BitVec.ofNat 16 k) ≠ 0
    have : BitVec.ofNat 16 k ≠ 0xFFFF := by
      intro h
      have := congrArg BitVec.toNat h
      simp at this
      omega
    rw [hm, show (0 : Word) + BitVec.ofNat 16 k = BitVec.ofNat 16 k from BitVec.zero_add _, if_neg this]
    decide
  · show m.read (0 + BitVec.ofNat 16 65535) = 0
    rw [hm]
    decide

theorem witness_LoaderPlacesTheImage :
    State.reset.params.kbdMmio = none ∧ State.reset.stepped = false ∧ parseImage [0xFF, 0xFF, 0x00, 0x01] = some (0xFFFF, [1]) ∧
    (0xFFFF#16).toNat + [1#16].length ≤ 65536 := ⟨rfl, rfl, by decide, by decide⟩

theorem witness_BadImageWritesNothing :
    State.reset.stepped = false ∧ [0x30#8, 0x00, 0x12].length % 2 = 1 ∧ ([] : List Byte).length < 2 ∧
    parseImage [0xFF, 0xFF, 0x00, 0x01, 0x00, 0x02] = some (0xFFFF, [1, 2]) ∧
    65536 < (0xFFFF#16).toNat + [1#16, 2#16].length := ⟨rfl, by decide⟩

theorem witness_PortsReachEveryCellAndWord : (9 : Nat) < 10 ∧ 10 ≤ (10 : Nat) ∧ State.reset.params.kbdMmio = none :=
  ⟨by decide, by decide, rfl⟩

theorem witness_StepRequestIsHeldUntilTheAnswer :
    ((∀ v, (asked [.load [0x30]]).run ≠ .trapPending v) ∧
      (asked [.load [0x30]]).inputs = .load [0x30] :: []) ∧
    ((∀ v, ((asked [.readReg 9, .step]).setRun .halted).run ≠ .trapPending v) ∧
      ((asked [.readReg 9, .step]).setRun .halted).inputs = .readReg 9 :: [.step]) ∧
    ((asked [.step, .step, .writeReg 0 7, .step]).setRun (.trapPending 0x20)).inputs =
      List.replicate 2 .step ++ .writeReg 0 7 :: [.step] ∧
    ((asked [.resume]).setRun (.trapPending 0xFF)).inputs = List.replicate 0 .step ++ .resume :: [] ∧
    ((asked [.step, .resume, .writeReg 0 7]).setRun (.trapPending 0x21)).inputs =
      .step :: .resume :: [.writeReg 0 7] :=
  ⟨⟨fun _ h => (by cases h), rfl⟩, ⟨fun _ h => (by cases h), rfl⟩, rfl, rfl, rfl⟩

/-- A memory with no zero word, with the service alone, before another action, and before a RESET. -/
theorem witness_StringWithoutZeroWordNeverEnds :
    ∃ s : State, s.params.kbdMmio = none ∧ (∀ a : Word, s.mem.read a ≠ 0) ∧
      ((s.setRun (.trapPending 0x22)).setInputs [.serve 0]).due = .serve 0 :: [] ∧
      ((s.setRun (.trapPending 0x24)).setInputs [.step, .serve 0, .reset]).due = .serve 0 :: [.reset] := by
  obtain ⟨m, hm⟩ : ∃ m : Memory, ∀ a, m.read a = 1 := ⟨_, (Memory.ofFn_spec fun _ => 1).2⟩
  exact ⟨State.reset.setMem m, rfl, fun a => by rw [State.setMem_mem, hm]; decide, rfl, rfl⟩

theorem witness_LoaderActsOnlyBeforeTheFirstStep :
    (State.reset.setStepped true).stepped = true ∧ (State.reset.setStepped true).due.head? ≠ some .reset ∧
    step State.reset = .next ((State.reset.setPc 0x3001).setStepped true) := ⟨rfl, by decide, rfl⟩

end Sys2Proof.Tests
end

/-! ## Sign extension and zero extension (00_scope.md R10) -/

namespace Sys2Proof.Machine

/-- The mask of `sext`, shifted as a 16-bit word, is the number `0xFFFF * 2 ^ n` cut to 16 bits. -/
theorem signMask_eq_ofNat (n : Nat) : 0xFFFF#16 <<< n = BitVec.ofNat 16 (0xFFFF * 2 ^ n) := by
  apply BitVec.eq_of_toNat_eq
  simp [BitVec.toNat_shiftLeft, Nat.shiftLeft_eq]

theorem sext_of_sign_set {n : Nat} {x : Word} (h : x.getLsbD (n - 1) = true) :
    sext n x = x ||| BitVec.ofNat 16 (0xFFFF * 2 ^ n) := by
  rw [sext, if_pos h, signMask_eq_ofNat]

theorem sext_of_sign_clear {n : Nat} {x : Word} (h : x.getLsbD (n - 1) = false) : sext n x = x := by
  simp [sext, h]

/-- A word below `2 ^ n` is the zero extension of its own low n bits, so `sext_setWidth` gives its value. -/
theorem sext_toInt_of_lt {n : Nat} (h0 : 0 < n) (hn : n ≤ 16) {x : Word} (hx : x.toNat < 2 ^ n) :
    (sext n x).toInt = (x.setWidth n).toInt := by
  have hfield : (x.setWidth n).setWidth 16 = x := by
    apply BitVec.eq_of_toNat_eq
    rw [BitVec.toNat_setWidth_of_le hn, BitVec.toNat_setWidth, Nat.mod_eq_of_lt hx]
  calc (sext n x).toInt
      = (sext n ((x.setWidth n).setWidth 16)).toInt := by rw [hfield]
    _ = ((x.setWidth n).signExtend 16).toInt := by rw [sext_setWidth h0 hn]
    _ = (x.setWidth n).toInt := BitVec.toInt_signExtend_of_le hn

theorem zext16_toNat {n : Nat} (hn : n ≤ 16) (x : BitVec n) : (zext16 x).toNat = x.toNat :=
  BitVec.toNat_setWidth_of_le hn

/-- Settles O6: the mask of each branch of `sext` is R10's, and on an extracted field `sext` is the
two's-complement sign extension. -/
theorem signExtensionOrsTheMask : Obligations.SignExtensionOrsTheMask := by
  unfold Obligations.SignExtensionOrsTheMask
  refine ⟨fun n x h1 h15 => ⟨sext_of_sign_set, sext_of_sign_clear, fun hx => ?_⟩,
    fun n x hn => zext16_toNat hn x⟩
  exact sext_toInt_of_lt h1 (by omega) hx

end Sys2Proof.Machine

/-! ## Registers and the instructions that set the flags (10_state.md R30, R37) -/

namespace Sys2Proof

/-- The DR of an instruction that calls `setcc` by 10_state.md R37; the other forms have none. -/
def Instr.flagDest : Instr → Option Reg
  | .addReg dr _ _ | .addImm dr _ _ | .andReg dr _ _ | .andImm dr _ _ | .not dr _
  | .ld dr _ | .ldi dr _ | .ldr dr _ _ | .lea dr _ => some dr
  | .br _ _ _ _ | .jmp _ | .jsr _ | .jsrr _ | .st _ _ | .sti _ _ | .str _ _ _
  | .trap _ | .rti _ | .res _ => none

theorem Instr.flagDest_eq_none_of_form {i : Instr}
    (h : i.form ∈ [.st, .sti, .str, .br, .jmp, .jsr, .jsrr, .trap, .rti, .res]) :
    i.flagDest = none := by
  cases i <;> simp [Instr.form, Instr.flagDest] at h ⊢

end Sys2Proof

namespace Sys2Proof.Machine

/-- Settles O14: the read and write rules of the register file, and the frame of `setReg`. -/
theorem registerWriteReadsBackAlone : Obligations.RegisterWriteReadsBackAlone := by
  unfold Obligations.RegisterWriteReadsBackAlone
  intro s r v
  exact ⟨s.getReg_setReg_self r v, fun _ hq => s.getReg_setReg_of_ne v hq, s.setReg_pc r v,
    s.setReg_cond r v, s.setReg_mem r v,
    ⟨s.setReg_run r v, s.setReg_params r v, s.setReg_stepped r v, s.setReg_inputs r v,
      s.setReg_events r v, s.setReg_output r v⟩, s.setReg_draws r v⟩

theorem State.writeDest_cond_eq_condOf_getReg (s : State) (dr : Reg) (v : Word) :
    (s.writeDest dr v).cond = condOf ((s.writeDest dr v).getReg dr) := by
  simp

/-- Each of the seven ends with `writeDest`, so its flags are those of the value it leaves in DR. -/
theorem exec_cond_of_flagDest {i : Instr} {dr : Reg} {s t : State} (hd : i.flagDest = some dr)
    (h : exec i s = .next t) : t.cond = condOf (t.getReg dr) := by
  cases i
  case addReg | addImm | andReg | andImm | not | ld | ldi | ldr | lea =>
    cases hd; cases h; exact State.writeDest_cond_eq_condOf_getReg _ _ _
  all_goals cases hd

/-- The other ten write COND nowhere; only STI reads memory, for its pointer, before it writes. -/
theorem exec_cond_of_no_flagDest {i : Instr} {s t : State} (hd : i.flagDest = none)
    (h : exec i s = .next t) : t.cond = s.cond := by
  cases i
  case br => cases h; split <;> rfl
  case jmp | jsr | jsrr | trap | rti | res => cases h; rfl
  case st | str => obtain ⟨_, rfl⟩ := State.writeWord_next h; rfl
  case sti => obtain ⟨_, rfl⟩ := State.writeWord_next h; exact State.afterRead_cond s _
  all_goals cases hd

/-- Settles O16: COND follows DR where the instruction has a flag-setting DR, and stays where it has none. -/
theorem exactlySevenInstructionsSetFlags : Obligations.ExactlySevenInstructionsSetFlags := by
  unfold Obligations.ExactlySevenInstructionsSetFlags
  intro i s t h
  refine ⟨fun dr hi => ?_, fun hf => exec_cond_of_no_flagDest (Instr.flagDest_eq_none_of_form hf) h⟩
  have hd : i.flagDest = some dr := by
    rcases hi with ⟨_, _, rfl⟩ | ⟨_, _, rfl⟩ | ⟨_, _, rfl⟩ | ⟨_, _, rfl⟩ | ⟨_, rfl⟩ | ⟨_, rfl⟩ |
      ⟨_, rfl⟩ | ⟨_, _, rfl⟩ | ⟨_, rfl⟩ <;> rfl
  rw [State.setcc_eq, State.setCond_cond]
  exact exec_cond_of_flagDest hd h

end Sys2Proof.Machine

/-! ## Memory accesses and their addresses (20_memory.md R51 to R53) -/

namespace Sys2Proof.Machine

/-! ### The keyboard words -/

/-- With a pair wired, its two addresses are the keyboard words and no other address is one. -/
theorem State.isKeyboard_iff_of_wired {s : State} {st d : Word} (h : s.params.kbdMmio = some (st, d))
    (a : Word) : s.isKeyboard a = true ↔ a = st ∨ a = d := by
  simp [State.isKeyboard, h]

theorem State.isKeyboard_eq_false_of_wired {s : State} {st d a : Word}
    (h : s.params.kbdMmio = some (st, d)) (hst : a ≠ st) (hd : a ≠ d) : s.isKeyboard a = false := by
  rw [← Bool.not_eq_true, State.isKeyboard_iff_of_wired h]
  exact not_or.2 ⟨hst, hd⟩

/-! ### MemRead and MemWrite -/

theorem State.readWord_keyboard {s : State} {a : Word} (h : s.isKeyboard a = true) :
    s.readWord a = Config.hostRead s.draws := by
  rw [State.readWord, if_pos h]

theorem State.writeWord_keyboard {s : State} {a : Word} (v : Word) (h : s.isKeyboard a = true) :
    s.writeWord a v = .refused (.keyboardStore a) := by
  rw [State.writeWord, if_pos h]

theorem State.sameControl_afterRead (s : State) (a : Word) : SameControl s (s.afterRead a) :=
  ⟨s.afterRead_run a, s.afterRead_params a, s.afterRead_stepped a, s.afterRead_inputs a,
    s.afterRead_events a, s.afterRead_output a⟩

theorem State.sameControl_setMem (s : State) (m : Memory) : SameControl s (s.setMem m) :=
  ⟨s.setMem_run m, s.setMem_params m, s.setMem_stepped m, s.setMem_inputs m, s.setMem_events m,
    s.setMem_output m⟩

theorem State.sameMemoryBut_setMem_write (s : State) (a v : Word) :
    SameMemoryBut [a] s (s.setMem (s.mem.write a v)) := fun _ hb =>
  Memory.read_write_of_ne s.mem v fun e => hb (List.mem_singleton.2 e)

/-- Settles O38: an address is plain memory or a keyboard word, and the read's frame holds at either. -/
theorem readReturnsTheWordAndChangesNothing : Obligations.ReadReturnsTheWordAndChangesNothing := by
  unfold Obligations.ReadReturnsTheWordAndChangesNothing
  refine ⟨fun s a h => s.read_plain (s.isKeyboard_of_none h a),
    fun s st d a h => ⟨fun hst hd => ?_, fun ha => ?_⟩⟩
  · exact s.read_plain (State.isKeyboard_eq_false_of_wired h hst hd)
  · exact ⟨State.readWord_keyboard ((State.isKeyboard_iff_of_wired h a).2 ha),
      fun r _ => s.afterRead_getReg a r, s.afterRead_pc a, s.afterRead_cond a, s.afterRead_mem a,
      s.sameControl_afterRead a⟩

/-- Settles O39: a store to plain memory is `Memory.write`, and one to a keyboard word is refused. -/
theorem writeChangesOneWord : Obligations.WriteChangesOneWord := by
  unfold Obligations.WriteChangesOneWord
  refine ⟨fun s a v hplain => ?_, fun s st d a v h ha => ?_⟩
  · have hk : s.isKeyboard a = false := by
      rcases hplain with h | ⟨st, d, h, hst, hd⟩
      · exact s.isKeyboard_of_none h a
      · exact State.isKeyboard_eq_false_of_wired h hst hd
    exact ⟨s.setMem (s.mem.write a v), s.writeWord_plain v hk, s.mem.read_write_self a v,
      s.sameMemoryBut_setMem_write a v, s.setMem_regs _, s.setMem_pc _, s.setMem_cond _,
      s.sameControl_setMem _, s.setMem_draws _⟩
  · exact State.writeWord_keyboard v ((State.isKeyboard_iff_of_wired h a).2 ha)

/-! ### Address arithmetic -/

/-- Adding a sign-extended offset to a word is integer addition modulo 2^16, at every width of the offset
up to 16. -/
theorem toNat_add_signExtend {n : Nat} (a : Word) (off : BitVec n) :
    ((a + off.signExtend 16).toNat : Int) = (a.toNat + off.toInt) % 65536 := by
  rw [BitVec.signExtend, BitVec.toNat_add, BitVec.toNat_ofInt]
  omega

/-! ### How an instruction ends -/

theorem State.writeWord_next_or_refused (s : State) (a v : Word) :
    (∃ t, s.writeWord a v = .next t) ∨
      ∃ b, s.isKeyboard b = true ∧ s.writeWord a v = .refused (.keyboardStore b) := by
  rcases s.writeWord_cases a v with ⟨_, e⟩ | ⟨hk, e⟩
  · exact .inl ⟨_, e⟩
  · exact .inr ⟨a, hk, e⟩

/-- An instruction answers a next state, or it is a store that a wired keyboard word refuses; only ST, STI
and STR end in a write to memory. -/
theorem exec_next_or_refused (i : Instr) (s : State) :
    (∃ t, exec i s = .next t) ∨
      ∃ a, s.isKeyboard a = true ∧ exec i s = .refused (.keyboardStore a) := by
  cases i
  case st sr off => exact s.writeWord_next_or_refused _ _
  case str sr base off => exact s.writeWord_next_or_refused _ _
  case sti sr off =>
    rcases (s.afterPointer off).writeWord_next_or_refused (s.indirect off) (s.getReg sr) with h | ⟨a, hk, h⟩
    · exact .inl h
    · exact .inr ⟨a, (s.afterRead_isKeyboard _ a).symm.trans hk, h⟩
  all_goals exact .inl ⟨_, rfl⟩

theorem exec_ne_fault (i : Instr) (s : State) (f : Fault) : exec i s ≠ .fault f := by
  intro hf
  rcases exec_next_or_refused i s with ⟨t, e⟩ | ⟨a, _, e⟩
  · cases e.symm.trans hf
  · cases e.symm.trans hf

theorem exec_next_of_unwired (i : Instr) {s : State} (h : s.params.kbdMmio = none) :
    ∃ t, exec i s = .next t := by
  rcases exec_next_or_refused i s with ht | ⟨a, hk, _⟩
  · exact ht
  · exact absurd hk (by simp [s.isKeyboard_of_none h a])

theorem State.afterFetch_params (s : State) : s.afterFetch.params = s.params := by
  simp [State.afterFetch]

/-- With no host action pending, a step in RUNNING executes the fetched instruction. -/
theorem step_eq_exec {s : State} (hr : s.run = .running) (hi : s.inputs = []) :
    step s = exec (decode s.fetchWord) s.afterFetch := by
  rw [step_nil hi, idleStep_running hr, runInstr]

/-- Settles O8: the address forms through `toNat_add_signExtend`, and the step through what every
instruction can answer. -/
theorem addressesWrapAndNoAccessFaults : Obligations.AddressesWrapAndNoAccessFaults := by
  unfold Obligations.AddressesWrapAndNoAccessFaults
  refine ⟨fun s off => ?_, fun s off => ?_, fun s base off => ?_, fun s hr hi => ?_⟩
  · rw [State.pcRelative9, offset9Operand_eq]
    exact toNat_add_signExtend s.pc off
  · rw [State.pcRelative11, offset11Operand_eq]
    exact toNat_add_signExtend s.pc off
  · rw [State.baseOffset, offset6Operand_eq]
    exact toNat_add_signExtend (s.getReg base) off
  · rw [step_eq_exec hr hi]
    exact ⟨exec_ne_fault _ _, fun hk => exec_next_of_unwired _ (by rwa [s.afterFetch_params])⟩

end Sys2Proof.Machine

/-! ## The step in RUNNING (30_encoding.md R90) -/

namespace Sys2Proof.Machine

/-- A STEP request that stands first runs the same step, once it is taken off the pending actions. -/
theorem step_eq_exec_of_request {s : State} {rest : List HostInput} (hr : s.run = .running)
    (hi : s.inputs = .step :: rest) :
    step s = exec (decode (s.setInputs rest).fetchWord) (s.setInputs rest).afterFetch := by
  have hcore : hostAct .step (s.setInputs rest) = coreStep (s.setInputs rest) := rfl
  rw [step_cons (by simp [hr]) hi, hcore, coreStep_running ((s.setInputs_run rest).trans hr), runInstr]

/-- A fetch from plain memory takes memory's word. -/
theorem State.fetchWord_plain {s : State} (h : s.isKeyboard s.pc = false) :
    s.fetchWord = s.mem.read s.pc :=
  (s.read_plain h).1

/-- A fetch from plain memory draws no free answer: it increments PC and notes the step. -/
theorem State.afterFetch_plain {s : State} (h : s.isKeyboard s.pc = false) :
    s.afterFetch = (s.setPc (s.pc + 1)).setStepped true := by
  rw [State.afterFetch, (s.read_plain h).2]

/-- Settles O9: `fetchWord` and `afterFetch` are the fetch of R90, run by an idle host and by a STEP request
alike; from plain memory they reduce to memory's word and the increment. -/
theorem stepRunsTheDecodedInstruction : Obligations.StepRunsTheDecodedInstruction := by
  unfold Obligations.StepRunsTheDecodedInstruction
  refine ⟨fun s hr hi => step_eq_exec hr hi, fun s rest hr hi => step_eq_exec_of_request hr hi,
    fun s hr hi hk => ?_⟩
  rw [step_eq_exec hr hi, State.fetchWord_plain hk, State.afterFetch_plain hk]

end Sys2Proof.Machine

/-! ## The diagnostic instructions (60_exceptions.md R202) -/

namespace Sys2Proof.Machine

/-- RTI and RES report one event and do nothing else (43_system.md R170, R172). -/
theorem exec_diagnostic {i : Instr} (hi : i.form = .rti ∨ i.form = .res) (s : State) :
    ∃ e, exec i s = .next (s.signal e) := by
  cases i
  case rti ir => exact ⟨.diagRti (s.pc - 1) ir, rfl⟩
  case res ir => exact ⟨.diagRes (s.pc - 1) ir, rfl⟩
  all_goals simp [Instr.form] at hi

/-- A step at an RTI or RES in plain memory is the fetch and one event. -/
theorem step_diagnostic {s : State} (hr : s.run = .running) (hi : s.inputs = [])
    (hk : s.isKeyboard s.pc = false)
    (hf : (decode (s.mem.read s.pc)).form = .rti ∨ (decode (s.mem.read s.pc)).form = .res) :
    ∃ e, step s = .next (((s.setPc (s.pc + 1)).setStepped true).signal e) := by
  rw [step_eq_exec hr hi, State.fetchWord_plain hk, State.afterFetch_plain hk]
  exact exec_diagnostic hf _

/-- Settles O35: the frame of the state `step_diagnostic` gives, read off the fields its three updates leave. -/
theorem diagnosticChangesOnlyThePc : Obligations.DiagnosticChangesOnlyThePc := by
  unfold Obligations.DiagnosticChangesOnlyThePc
  intro s hr hi hk hf
  obtain ⟨e, hstep⟩ := step_diagnostic hr hi hk hf
  refine ⟨_, e, hstep, ?_⟩
  simp [SameRegsBut, SameMemoryBut, hr]

end Sys2Proof.Machine

/-! ## Decoding and encoding (30_encoding.md sections 1 to 3) -/

namespace Sys2Proof

open Machine
open BitVec (extractLsb'_or and_or_distrib_left and_or_distrib_right)

/-! ### Fields placed in a word -/

theorem getElem_place {n : Nat} (x : BitVec n) (lo : Nat) {i : Nat} (h : i < 16) :
    (place x lo)[i] = (decide (lo ≤ i) && x.getLsbD (i - lo)) := by
  rw [← BitVec.getLsbD_eq_getElem, getLsbD_place]
  simp [h]

theorem extract_place_self {n lo : Nat} (x : BitVec n) (h : lo + n ≤ 16) :
    (place x lo).extractLsb' lo n = x :=
  extract_of_bits _ lo x fun i hi => by
    simp [getLsbD_place, -BitVec.getLsbD_eq_getElem, show lo + i < 16 by omega]

theorem extract_place_disjoint {n m lo lo' : Nat} (x : BitVec n) (h : lo + n ≤ lo' ∨ lo' + m ≤ lo) :
    (place x lo).extractLsb' lo' m = 0 :=
  extract_of_bits _ lo' 0 fun i hi => by
    rcases h with h | h
    · simp [getLsbD_place, BitVec.getLsbD_of_ge x (lo' + i - lo) (by omega)]
    · simp [getLsbD_place, show ¬lo ≤ lo' + i by omega]

theorem toFin_regBits (r : Reg) : (regBits r).toFin = r := rfl

/-! ### Decoding an encoded instruction -/

theorem opcode_encode {i : Instr} (h : i.wellFormed = true) :
    Opcode.ofBits (opcodeBits (encode i)) = i.opcode := by
  cases i with
  | br n z p off => exact Laws.EncodeOpcode.br n z p off h
  | addReg dr a b => exact Laws.EncodeOpcode.addReg dr a b h
  | addImm dr a imm => exact Laws.EncodeOpcode.addImm dr a imm h
  | ld dr off => exact Laws.EncodeOpcode.ld dr off h
  | st sr off => exact Laws.EncodeOpcode.st sr off h
  | jsr off => exact Laws.EncodeOpcode.jsr off h
  | jsrr base => exact Laws.EncodeOpcode.jsrr base h
  | andReg dr a b => exact Laws.EncodeOpcode.andReg dr a b h
  | andImm dr a imm => exact Laws.EncodeOpcode.andImm dr a imm h
  | ldr dr base off => exact Laws.EncodeOpcode.ldr dr base off h
  | str sr base off => exact Laws.EncodeOpcode.str sr base off h
  | rti ir => exact Laws.EncodeOpcode.rti ir h
  | not dr sr => exact Laws.EncodeOpcode.not dr sr h
  | ldi dr off => exact Laws.EncodeOpcode.ldi dr off h
  | sti sr off => exact Laws.EncodeOpcode.sti sr off h
  | jmp base => exact Laws.EncodeOpcode.jmp base h
  | res ir => exact Laws.EncodeOpcode.res ir h
  | lea dr off => exact Laws.EncodeOpcode.lea dr off h
  | trap vect => exact Laws.EncodeOpcode.trap vect h

/-- The opcode chooses the decoder's arm; there each field is read from an OR of placed fields, of which one
stands at its place and the others beside it. -/
theorem decode_encode {i : Instr} (h : i.wellFormed = true) : decode (encode i) = i := by
  have hop := opcode_encode h
  cases i <;> simp only [decode, hop, Instr.opcode]
  all_goals
    simp [encode, fieldDR, fieldSR1, fieldSR2, fieldImm5, fieldOffset6, fieldPCoffset9, fieldPCoffset11,
      fieldTrapvect8, regField, extractLsb'_or, extract_place_self, extract_place_disjoint, getElem_place,
      toFin_regBits]

/-- Settles O1, form by form: the opcode and then each field reads back. -/
theorem encodedInstructionDecodesBack : Obligations.EncodedInstructionDecodesBack := by
  unfold Obligations.EncodedInstructionDecodesBack
  exact fun _ h => decode_encode h

/-- Settles O5: fourteen closed words. -/
theorem sampleWordsDecode : Obligations.SampleWordsDecode := by
  unfold Obligations.SampleWordsDecode
  decide

/-! ### The fields of a word, put back where they stood -/

/-- A field read from a word and placed again is the word under the field's mask. -/
theorem place_extract (w : Word) (lo n : Nat) :
    place (w.extractLsb' lo n) lo = w &&& place (BitVec.allOnes n) lo := by
  apply BitVec.eq_of_getLsbD_eq
  intro i hi
  rw [BitVec.getLsbD_and, getLsbD_place, getLsbD_place, BitVec.getLsbD_extractLsb', BitVec.getLsbD_allOnes]
  by_cases h : lo ≤ i
  · simp [hi, h, Bool.and_comm, -BitVec.getLsbD_eq_getElem]
  · simp [h]

theorem place_ofBool_getLsbD (w : Word) (i : Nat) :
    place (BitVec.ofBool (w.getLsbD i)) i = w &&& 1#16 <<< i := by
  have hbit : w.extractLsb' i 1 = BitVec.ofBool (w.getLsbD i) :=
    extract_of_bits w i _ fun j hj => by
      obtain rfl : j = 0 := by omega
      simp
  rw [← hbit, place_extract]
  rfl

theorem place_opcodeBits (w : Word) : place (opcodeBits w) 12 = w &&& 0xF000#16 := place_extract w 12 4

@[simp] theorem place_fieldDR (w : Word) : place (regBits (fieldDR w)) 9 = w &&& 0x0E00#16 :=
  place_extract w 9 3

@[simp] theorem place_fieldSR1 (w : Word) : place (regBits (fieldSR1 w)) 6 = w &&& 0x01C0#16 :=
  place_extract w 6 3

@[simp] theorem place_fieldSR2 (w : Word) : place (regBits (fieldSR2 w)) 0 = w &&& 0x0007#16 :=
  place_extract w 0 3

@[simp] theorem place_fieldImm5 (w : Word) : place (fieldImm5 w) 0 = w &&& 0x001F#16 := place_extract w 0 5

@[simp] theorem place_fieldOffset6 (w : Word) : place (fieldOffset6 w) 0 = w &&& 0x003F#16 :=
  place_extract w 0 6

@[simp] theorem place_fieldPCoffset9 (w : Word) : place (fieldPCoffset9 w) 0 = w &&& 0x01FF#16 :=
  place_extract w 0 9

@[simp] theorem place_fieldPCoffset11 (w : Word) : place (fieldPCoffset11 w) 0 = w &&& 0x07FF#16 :=
  place_extract w 0 11

@[simp] theorem place_fieldTrapvect8 (w : Word) : place (fieldTrapvect8 w) 0 = w &&& 0x00FF#16 :=
  place_extract w 0 8

/-! ### Opcode and mode bit as masked words -/

/-- The opcode number of a tag: its position in the list of 30_encoding.md R72. -/
def Opcode.bits : Opcode → BitVec 4
  | .br => 0x0#4 | .add => 0x1#4 | .ld => 0x2#4 | .st => 0x3#4
  | .jsr => 0x4#4 | .and => 0x5#4 | .ldr => 0x6#4 | .str => 0x7#4
  | .rti => 0x8#4 | .not => 0x9#4 | .ldi => 0xA#4 | .sti => 0xB#4
  | .jmp => 0xC#4 | .res => 0xD#4 | .lea => 0xE#4 | .trap => 0xF#4

theorem Opcode.bits_ofBits : ∀ b : BitVec 4, (Opcode.ofBits b).bits = b := by decide

theorem and_opcodeMask {w : Word} {o : Opcode} (h : Opcode.ofBits (opcodeBits w) = o) :
    w &&& 0xF000#16 = place o.bits 12 := by
  rw [← h, Opcode.bits_ofBits, place_opcodeBits]

theorem and_opcodeMask_or_bit {w : Word} {o : Opcode} {i : Nat} {b : Bool}
    (h : Opcode.ofBits (opcodeBits w) = o) (hb : w.getLsbD i = b) :
    w &&& (0xF000#16 ||| 1#16 <<< i) = place o.bits 12 ||| place (BitVec.ofBool b) i := by
  rw [and_or_distrib_left, and_opcodeMask h, ← place_ofBool_getLsbD, hb]

theorem place_bit_of_set {w : Word} {i : Nat} (h : w.getLsbD i = true) :
    place 1#1 i = w &&& 1#16 <<< i := by
  rw [← place_ofBool_getLsbD, h]
  rfl

theorem and_or_bit_of_clear {w : Word} {i : Nat} (h : w.getLsbD i = false) (m : Word) :
    w &&& (m ||| 1#16 <<< i) = w &&& m := by
  rw [and_or_distrib_left, ← place_ofBool_getLsbD, h]
  simp [place]

/-! ### The opcode table -/

/-- What a word decodes to has a row of the table, and the word matches it. -/
theorem decode_row (w : Word) :
    ∃ row ∈ instructionFormats, w &&& row.mask = row.bits ∧ (decode w).form = row.form := by
  cases ho : Opcode.ofBits (opcodeBits w) <;> simp only [decode, ho]
  case add | and =>
    cases hm : w.getLsbD 5 <;>
      simpa [instructionFormats, Instr.form, Opcode.bits, place] using and_opcodeMask_or_bit ho hm
  case jsr =>
    cases hm : w.getLsbD 11 <;>
      simpa [instructionFormats, Instr.form, Opcode.bits, place] using and_opcodeMask_or_bit ho hm
  all_goals simpa [instructionFormats, Instr.form, Opcode.bits, place] using and_opcodeMask ho

/-- Two different rows fix some common bit differently. -/
theorem rows_disjoint : ∀ row ∈ instructionFormats, ∀ other ∈ instructionFormats,
    row.bits &&& other.mask = other.bits &&& row.mask → other = row := by
  decide

theorem row_unique {w : Word} {row other : FormatRow} (hr : row ∈ instructionFormats)
    (ho : other ∈ instructionFormats) (hw : w &&& row.mask = row.bits)
    (hw' : w &&& other.mask = other.bits) : other = row := by
  refine rows_disjoint row hr other ho ?_
  rw [← hw, ← hw', BitVec.and_assoc, BitVec.and_assoc, BitVec.and_comm row.mask]

/-- Settles O4: a word matches the row of what it decodes to, and no word matches two rows. -/
theorem everyWordDecodesToItsOneTableRow : Obligations.EveryWordDecodesToItsOneTableRow := by
  unfold Obligations.EveryWordDecodesToItsOneTableRow
  intro w
  obtain ⟨row, hrow, hw, hform⟩ := decode_row w
  exact ⟨row, hrow, hw, hform, fun other ho hw' => row_unique hrow ho hw hw'⟩

/-! ### Encoding a decoded word -/

theorem decode_wellFormed (w : Word) : (decode w).wellFormed = true := by
  cases ho : Opcode.ofBits (opcodeBits w) <;> simp only [decode, ho]
  case rti | res =>
    have hb := Opcode.bits_ofBits (opcodeBits w)
    rw [ho] at hb
    exact beq_iff_eq.2 hb.symm
  case add | and | jsr => split <;> rfl
  all_goals rfl

/-- The bits R86 has an assembler emit in NOT's IR[5:0]. -/
theorem place_notPadding : place 0x3F#6 0 = 0x3F#16 := rfl

/-- Opcode, mode bit and fields are each the word under a mask, so their OR is the word under the OR of the
masks. A mode bit that is clear is not placed: `and_or_bit_of_clear` adds it to the mask. -/
theorem encode_decode_named (w : Word) :
    encode (decode w) &&& (decode w).namedBits = w &&& (decode w).namedBits := by
  cases ho : Opcode.ofBits (opcodeBits w) <;>
    have hop := (and_opcodeMask ho).symm <;> simp only [Opcode.bits] at hop <;> simp only [decode, ho]
  case add | and =>
    cases hm : w.getLsbD 5
    · simp [encode, Instr.namedBits, hop, ← and_or_distrib_left, BitVec.and_assoc]
      exact (and_or_bit_of_clear hm 0xFFC7#16).symm
    · simp [encode, Instr.namedBits, hop, place_bit_of_set hm, ← and_or_distrib_left, BitVec.and_assoc]
  case jsr =>
    cases hm : w.getLsbD 11
    · simp [encode, Instr.namedBits, hop, ← and_or_distrib_left, BitVec.and_assoc]
      exact (and_or_bit_of_clear hm 0xF1C0#16).symm
    · simp [encode, Instr.namedBits, hop, place_bit_of_set hm, ← and_or_distrib_left, BitVec.and_assoc]
  case br =>
    simp [encode, Instr.namedBits, hop, place_ofBool_getLsbD, ← and_or_distrib_left, BitVec.and_assoc,
      -BitVec.getLsbD_eq_getElem]
  case not =>
    simp [encode, Instr.namedBits, hop, place_notPadding, and_or_distrib_right, ← and_or_distrib_left,
      BitVec.and_assoc]
  all_goals simp [encode, Instr.namedBits, hop, ← and_or_distrib_left, BitVec.and_assoc]

/-- Settles O2. -/
theorem decodingKeepsEveryNamedBit : Obligations.DecodingKeepsEveryNamedBit := by
  unfold Obligations.DecodingKeepsEveryNamedBit
  exact fun w => ⟨decode_wellFormed w, encode_decode_named w⟩

/-! ### Ignored bits -/

/-- The named bits belong to the form: every instruction of a form has the same (`Instr.namedBits_eq`). -/
def Form.namedBits : Form → Word
  | .br | .ld | .st | .ldr | .str | .ldi | .sti | .lea | .addImm | .andImm | .jsr => 0xFFFF
  | .addReg | .andReg => 0xFFE7
  | .jsrr => 0xF9C0
  | .not => 0xFFC0
  | .jmp => 0xF1C0
  | .trap => 0xF0FF
  | .rti | .res => 0xF000

theorem Instr.namedBits_eq (i : Instr) : i.namedBits = i.form.namedBits := by cases i <;> rfl

theorem rowMask_named :
    ∀ row ∈ instructionFormats, row.form.namedBits &&& row.mask = row.mask := by decide

/-- The named bits alone choose the form: they include the mask of its row. -/
theorem form_of_named {w w' : Word} (h : w &&& (decode w).namedBits = w' &&& (decode w).namedBits) :
    (decode w').form = (decode w).form := by
  obtain ⟨row, hrow, hw, hform⟩ := decode_row w
  obtain ⟨row', hrow', hw', hform'⟩ := decode_row w'
  rw [Instr.namedBits_eq, hform] at h
  have hmatch : w' &&& row.mask = row.bits := by
    rw [← hw, ← rowMask_named row hrow, ← BitVec.and_assoc, ← h, BitVec.and_assoc]
  rw [hform', hform, row_unique hrow hrow' hmatch hw']

theorem place_and_of_disjoint {n lo : Nat} {c : Word} (x : BitVec n) (hn : lo + n ≤ 16)
    (hc : place (BitVec.allOnes n) lo &&& c = 0) : place x lo &&& c = 0 := by
  have hx : place x lo = place x lo &&& place (BitVec.allOnes n) lo := by
    rw [← place_extract, extract_place_self x hn]
  rw [hx, BitVec.and_assoc, hc]
  exact BitVec.and_zero

/-- The encoder's bits outside the named ones depend on the form alone (30_encoding.md R86). -/
theorem encode_unnamed {i : Instr} (h1 : i.form ≠ .rti) (h2 : i.form ≠ .res) :
    encode i &&& ~~~i.form.namedBits = if i.form = .not then 0x003F else 0 := by
  cases i
  case rti | res => contradiction
  all_goals
    simp (disch := decide) [encode, Instr.form, Form.namedBits, and_or_distrib_right,
      place_and_of_disjoint, place_notPadding]

theorem eq_named_or_unnamed (w named : Word) : w = (w &&& named) ||| (w &&& ~~~named) := by
  rw [← and_or_distrib_left, BitVec.or_not_self, BitVec.and_allOnes]

/-- An instruction is known by its form and the named bits of its encoding, since the encoding then is known
whole and decodes back. -/
theorem eq_of_encode_named {i j : Instr} (hi : i.wellFormed = true) (hj : j.wellFormed = true)
    (hf : i.form = j.form) (h1 : i.form ≠ .rti) (h2 : i.form ≠ .res)
    (h : encode i &&& i.form.namedBits = encode j &&& i.form.namedBits) : i = j := by
  have he : encode i = encode j := by
    have hun := encode_unnamed (hf ▸ h1) (hf ▸ h2)
    rw [eq_named_or_unnamed (encode i) i.form.namedBits, h, encode_unnamed h1 h2, hf, ← hun,
      ← eq_named_or_unnamed]
  rw [← decode_encode hi, he, decode_encode hj]

/-- Settles O3: the two words' decodings have one form, and encodings with the same named bits. -/
theorem ignoredBitsDoNotChangeDecoding : Obligations.IgnoredBitsDoNotChangeDecoding := by
  unfold Obligations.IgnoredBitsDoNotChangeDecoding
  intro w w' h
  have hf := form_of_named h
  refine ⟨hf, fun h1 h2 => ?_⟩
  have he := encode_decode_named w
  have he' := encode_decode_named w'
  rw [Instr.namedBits_eq] at h he he'
  refine eq_of_encode_named (decode_wellFormed w') (decode_wellFormed w) hf (hf ▸ h1) (hf ▸ h2) ?_
  rw [he', hf, ← h, he]

/-! ### Signed operands -/

theorem toInt_signExtend_and_range {n : Nat} (hn : n ≤ 16) (f : BitVec n) :
    (f.signExtend 16).toInt = f.toInt ∧ -2 ^ (n - 1) ≤ f.toInt ∧ f.toInt < 2 ^ (n - 1) :=
  ⟨BitVec.toInt_signExtend_of_le hn, BitVec.le_toInt f, BitVec.toInt_lt⟩

/-- Settles O7: each operand is a sign extension, and its range is that of its field's width. -/
theorem signedFieldsAreSignExtended : Obligations.SignedFieldsAreSignExtended := by
  unfold Obligations.SignedFieldsAreSignExtended
  simp only [immOperand_eq, offset6Operand_eq, offset9Operand_eq, offset11Operand_eq]
  refine ⟨fun f => ?_, fun f => ?_, fun f => ?_, fun f => ?_⟩
  all_goals
    obtain ⟨hv, hlo, hhi⟩ := toInt_signExtend_and_range (by decide) f
    exact ⟨hv, hlo, Int.le_of_lt_add_one hhi⟩

end Sys2Proof

/-! ## What a step can do, and the invariants it keeps -/

namespace Sys2Proof.Machine

/-! ### The host actions' answers -/

theorem hostReadReg_next {k : Nat} {s t : State} (h : hostReadReg k s = .next t) :
    ∃ v, t = s.emit [.regValue k v] := by
  unfold hostReadReg at h
  split at h
  · next v _ => cases h; exact ⟨v, rfl⟩
  · cases h

theorem hostWriteReg_next {k : Nat} {v : Word} {s t : State} (h : hostWriteReg k v s = .next t) :
    (∃ hk : k < 8, t = s.setReg ⟨k, hk⟩ v) ∨ (k = 8 ∧ t = s.setPc v) ∨ (k = 9 ∧ t = s.setCond v) := by
  unfold hostWriteReg State.writeCell at h
  by_cases h8 : k < 8
  · rw [dif_pos h8] at h; cases h; exact .inl ⟨h8, rfl⟩
  · rw [dif_neg h8] at h
    by_cases e8 : k = 8
    · rw [if_pos e8] at h; cases h; exact .inr (.inl ⟨e8, rfl⟩)
    · rw [if_neg e8] at h
      by_cases e9 : k = 9
      · rw [if_pos e9] at h; cases h; exact .inr (.inr ⟨e9, rfl⟩)
      · rw [if_neg e9] at h; cases h

/-- What the service leaves before its signal: the character may have moved R0 and COND, the rest stands. -/
theorem service_frame {c : Byte} {s u : State}
    (hu : (∃ os, u = (s.emit os).inputChar c) ∨ SameCore s u) :
    u.params = s.params ∧ u.stepped = s.stepped ∧ u.inputs = s.inputs ∧ u.events = s.events ∧
      u.mem = s.mem ∧ u.run = s.run ∧ (u.cond = s.cond ∨ ∃ v, u.cond = condOf v) := by
  rcases hu with ⟨os, rfl⟩ | ⟨-, -, hcond, hmem, hrun, hparams, hstepped, hinputs, hevents⟩
  · rcases (s.emit os).inputChar_eq c with e | e <;> rw [e] <;> simp
  · exact ⟨hparams, hstepped, hinputs, hevents, hmem, hrun, .inl hcond⟩

/-- How a host action ends a TRAP pending with vector `v`: RESUME and four services resume it; HALT and the
service of 0x25 halt; ABORT and the service of an undefined vector abort (60_exceptions.md R211 to R215). -/
def HostInput.EndsTrap (i : HostInput) (v : Byte) (r : RunState) : Prop :=
  r = .running ∨
  (r = .halted ∧ (i = .halt ∨ ∃ c, i = .serve c ∧ v = 0x25)) ∨
  (r = .aborted ∧ (i = .abort ∨ ∃ c, i = .serve c ∧ (v.toNat < 0x20 ∨ 0x25 < v.toNat)))

theorem HostInput.endsTrap_halted_iff {i : HostInput} {v : Byte} :
    i.EndsTrap v .halted ↔ i = .halt ∨ ∃ c, i = .serve c ∧ v = 0x25 := by
  simp [HostInput.EndsTrap]

theorem HostInput.endsTrap_aborted_iff {i : HostInput} {v : Byte} :
    i.EndsTrap v .aborted ↔ i = .abort ∨ ∃ c, i = .serve c ∧ (v.toNat < 0x20 ∨ 0x25 < v.toNat) := by
  simp [HostInput.EndsTrap]

/-- Everything a host action other than STEP and RESET can change from `s` to `t`, beside registers, PC, output
and draws. -/
structure HostInput.Changes (i : HostInput) (s t : State) : Prop where
  params : t.params = s.params
  stepped : t.stepped = s.stepped
  inputs : t.inputs = s.inputs ∨ t.inputs = i :: s.inputs
  events : t.events = s.events ∨ ∃ e, t.events = s.events ++ [e]
  mem_wf : s.mem.wf → t.mem.wf
  cond : t.cond = s.cond ∨ (∃ v, t.cond = condOf v) ∨ ∃ v, i = .writeReg 9 v ∧ t.cond = v
  run : t.run = s.run ∨ ∃ v, s.run = .trapPending v ∧ i.EndsTrap v t.run

theorem hostServe_changes {c : Byte} {s t : State} (h : hostServe c s = .next t) :
    (HostInput.serve c).Changes s t := by
  obtain ⟨v, u, hv, hu, ht⟩ := hostServe_next h
  obtain ⟨hparams, hstepped, hinputs, hevents, hmem, hrun, hcond⟩ := service_frame hu
  have hwf : s.mem.wf → u.mem.wf := fun hm => hmem ▸ hm
  have hcond' := hcond.imp_right fun hc =>
    Or.inl (b := ∃ w, HostInput.serve c = .writeReg 9 w ∧ u.cond = w) hc
  rcases ht with rfl | rfl | rfl | ⟨hhalt, rfl⟩ | ⟨hundef, rfl⟩
  · exact ⟨hparams, hstepped, .inl hinputs, .inl hevents, hwf, hcond', .inr ⟨v, hv, .inl rfl⟩⟩
  · exact ⟨hparams, hstepped, .inl hinputs, .inl hevents, hwf, hcond', .inl hrun⟩
  · exact ⟨hparams, hstepped, .inr (congrArg _ hinputs), .inl hevents, hwf, hcond', .inl hrun⟩
  · exact ⟨hparams, hstepped, .inl hinputs, .inr ⟨.halted, by simp [hevents]⟩, hwf, hcond',
      .inr ⟨v, hv, .inr (.inl ⟨rfl, .inr ⟨c, rfl, hhalt⟩⟩)⟩⟩
  · exact ⟨hparams, hstepped, .inl hinputs, .inr ⟨.fatalTrapVector v, by simp [hevents]⟩, hwf, hcond',
      .inr ⟨v, hv, .inr (.inr ⟨rfl, .inr ⟨c, rfl, hundef⟩⟩)⟩⟩

theorem hostAct_changes {i : HostInput} {s t : State} (h : hostAct i s = .next t)
    (hreset : i ≠ .reset) (hstep : i ≠ .step) : i.Changes s t := by
  cases i with
  | step => exact absurd rfl hstep
  | reset => exact absurd rfl hreset
  | resume =>
    obtain ⟨v, hv, rfl⟩ := hostResume_next h
    exact ⟨rfl, rfl, .inl rfl, .inl rfl, id, .inl rfl, .inr ⟨v, hv, .inl rfl⟩⟩
  | halt =>
    obtain ⟨v, hv, rfl⟩ := hostHalt_next h
    exact ⟨rfl, rfl, .inl rfl, .inr ⟨_, rfl⟩, id, .inl rfl, .inr ⟨v, hv, .inr (.inl ⟨rfl, .inl rfl⟩)⟩⟩
  | abort =>
    obtain ⟨v, hv, rfl⟩ := hostAbort_next h
    exact ⟨rfl, rfl, .inl rfl, .inr ⟨_, rfl⟩, id, .inl rfl, .inr ⟨v, hv, .inr (.inr ⟨rfl, .inl rfl⟩)⟩⟩
  | serve c => exact hostServe_changes h
  | readReg k =>
    obtain ⟨v, rfl⟩ := hostReadReg_next h
    exact ⟨rfl, rfl, .inl rfl, .inl rfl, id, .inl rfl, .inl rfl⟩
  | writeReg k v =>
    rcases hostWriteReg_next h with ⟨_, rfl⟩ | ⟨_, rfl⟩ | ⟨rfl, rfl⟩
    · exact ⟨rfl, rfl, .inl rfl, .inl rfl, id, .inl rfl, .inl rfl⟩
    · exact ⟨rfl, rfl, .inl rfl, .inl rfl, id, .inl rfl, .inl rfl⟩
    · exact ⟨rfl, rfl, .inl rfl, .inl rfl, id, .inr (.inr ⟨v, rfl, rfl⟩), .inl rfl⟩
  | readMem a =>
    obtain rfl : _ = t := Host.Outcome.next.inj h
    constructor <;> simp
  | writeMem a v =>
    obtain ⟨_, rfl⟩ := State.writeWord_next h
    exact ⟨rfl, rfl, .inl rfl, .inl rfl, fun hm => Memory.write_wf hm _ _, .inl rfl, .inl rfl⟩
  | load image =>
    rcases (hostLoad_next h).2 with ⟨o, ws, _, hw⟩ | rfl
    · obtain ⟨e, hwf⟩ := State.writeWords_frame hw
      rw [e]
      exact ⟨rfl, rfl, .inl rfl, .inl rfl, hwf, .inl rfl, .inl rfl⟩
    · exact ⟨rfl, rfl, .inl rfl, .inl rfl, id, .inl rfl, .inl rfl⟩

/-! ### The step -/

/-- What running an instruction can change, from the state before the fetch (`exec_next` from `afterFetch`). -/
theorem runInstr_next {s t : State} (h : runInstr s = .next t) :
    t.params = s.params ∧ t.stepped = true ∧ t.inputs = s.inputs ∧
    (t.mem = s.mem ∨ ∃ a v, t.mem = s.mem.write a v) ∧
    (t.cond = s.cond ∨ ∃ v, t.cond = condOf v) ∧
    ((t.run = s.run ∧ (t.events = s.events ∨ ∃ e, t.events = s.events ++ [e])) ∨
      ∃ v, t = s.afterFetch.enterTrap v) := by
  obtain ⟨-, -, hcond, hmem, hrun, hparams, hstepped, hinputs, hevents, -⟩ := s.afterFetch_fields
  obtain ⟨ep, es, ei, -, em, ec, er⟩ := exec_next h
  rw [hmem] at em
  rw [hcond] at ec
  rw [hrun, hevents] at er
  exact ⟨ep.trans hparams, es.trans hstepped, ei.trans hinputs, em, ec,
    er.imp_right fun ⟨v, _, e⟩ => ⟨v, e⟩⟩

theorem State.mem_inputs_of_due_head {s : State} {i : HostInput} (h : s.due.head? = some i) :
    i ∈ s.inputs := by
  rw [← s.held_append_due]
  exact List.mem_append_right _ (List.mem_of_head? h)

/-- Everything a step that answers can have done, with `is` the actions it leaves pending: run an instruction,
hold outside RUNNING, reset, or one other host action. -/
theorem step_next_cases {s t : State} (h : step s = .next t) :
    ∃ is, is ⊆ s.inputs ∧
      ((s.run = .running ∧ runInstr (s.setInputs is) = .next t) ∨
        (s.run ≠ .running ∧ t = s.setInputs is) ∨
        (s.due.head? = some .reset ∧ t = (s.setInputs is).resetSignal) ∨
        ∃ i, s.due.head? = some i ∧ i ≠ .reset ∧ i ≠ .step ∧ hostAct i (s.setInputs is) = .next t) := by
  rcases step_next h with ⟨_, hcore⟩ | ⟨i, rest, hdue, hact⟩
  · exact ⟨s.inputs, List.Subset.refl _, (coreStep_next hcore).imp_right .inl⟩
  · have hsub : s.held ++ rest ⊆ s.inputs := by
      rw [← s.held_append_due, hdue]
      exact List.append_subset.2 ⟨List.subset_append_left _ _,
        fun j hj => List.mem_append_right _ (List.mem_cons_of_mem i hj)⟩
    refine ⟨s.held ++ rest, hsub, ?_⟩
    by_cases hstep : i = .step
    · subst hstep
      exact (coreStep_next hact).imp_right .inl
    by_cases hreset : i = .reset
    · subst hreset
      cases hact
      exact .inr (.inr (.inl ⟨by rw [hdue]; rfl, rfl⟩))
    · exact .inr (.inr (.inr ⟨i, by rw [hdue]; rfl, hreset, hstep, hact⟩))

/-- What stays pending after a step was pending before it. -/
theorem step_inputs_subset {s t : State} (h : step s = .next t) : t.inputs ⊆ s.inputs := by
  obtain ⟨is, hsub, ⟨-, hrun⟩ | ⟨-, rfl⟩ | ⟨-, rfl⟩ | ⟨i, hdue, hreset, hstep, hact⟩⟩ := step_next_cases h
  · obtain ⟨-, -, hinputs, -⟩ := runInstr_next hrun
    rw [hinputs]; exact hsub
  · exact hsub
  · exact hsub
  · rcases (hostAct_changes hact hreset hstep).inputs with e | e <;> rw [e]
    · exact hsub
    · exact List.cons_subset.2 ⟨State.mem_inputs_of_due_head hdue, hsub⟩

/-! ### Canonical memory -/

/-- Settles O44: memory is kept, or written one word at a time by `Memory.write`, which keeps the form. -/
theorem stepKeepsMemoryCanonical : Obligations.StepKeepsMemoryCanonical := by
  unfold Obligations.StepKeepsMemoryCanonical
  intro s t hwf h
  obtain ⟨is, -, ⟨-, hrun⟩ | ⟨-, rfl⟩ | ⟨-, rfl⟩ | ⟨i, -, hreset, hstep, hact⟩⟩ := step_next_cases h
  · obtain ⟨-, -, -, hmem | ⟨a, v, hmem⟩, -⟩ := runInstr_next hrun
    · rwa [hmem]
    · rw [hmem]; exact Memory.write_wf hwf a v
  · exact hwf
  · exact hwf
  · exact (hostAct_changes hact hreset hstep).mem_wf hwf

/-! ### One-hot flags -/

theorem oneHot_condOf (v : Word) : oneHot (condOf v) := by
  rcases condOf_oneHot v with h | h | h <;> rw [h]
  · exact .inr (.inr rfl)
  · exact .inr (.inl rfl)
  · exact .inl rfl

/-- Settles O45: a step keeps COND, derives it by `condOf`, resets it, or takes it from a port write, whose
value `keepsFlags` bounds; what stays pending was pending before. -/
theorem stepKeepsFlagsOneHot : Obligations.StepKeepsFlagsOneHot := by
  unfold Obligations.StepKeepsFlagsOneHot
  intro s t ⟨hcond, hkeeps⟩ h
  refine ⟨?_, fun i hi => hkeeps i (step_inputs_subset h hi)⟩
  obtain ⟨is, -, ⟨-, hrun⟩ | ⟨-, rfl⟩ | ⟨-, rfl⟩ | ⟨i, hdue, hreset, hstep, hact⟩⟩ := step_next_cases h
  · obtain ⟨-, -, -, -, e | ⟨v, e⟩, -⟩ := runInstr_next hrun <;> rw [e]
    · exact hcond
    · exact oneHot_condOf v
  · exact hcond
  · exact .inr (.inl rfl)
  · rcases (hostAct_changes hact hreset hstep).cond with e | ⟨v, e⟩ | ⟨v, rfl, e⟩ <;> rw [e]
    · exact hcond
    · exact oneHot_condOf v
    · exact hkeeps _ (State.mem_inputs_of_due_head hdue) rfl

/-! ### Precise traps -/

theorem State.enterTrap_link (s : State) (v : Byte) :
    (s.enterTrap v).getReg Reg.link = s.pc ∧ (s.enterTrap v).pc = s.pc :=
  ⟨s.getReg_setReg_self Reg.link s.pc, rfl⟩

/-- A step that starts with no TRAP pending and ends with one has executed a TRAP (60_exceptions.md R206). -/
theorem step_enters_pending {s t : State} {v : Byte} (hs : ∀ w, s.run ≠ .trapPending w)
    (h : step s = .next t) (ht : t.run = .trapPending v) :
    t.getReg Reg.link = s.pc + 1 ∧ t.pc = s.pc + 1 := by
  obtain ⟨is, -, ⟨-, hrun⟩ | ⟨-, rfl⟩ | ⟨-, rfl⟩ | ⟨i, -, hreset, hstep, hact⟩⟩ := step_next_cases h
  · obtain ⟨-, -, -, -, -, ⟨hr, -⟩ | ⟨w, rfl⟩⟩ := runInstr_next hrun
    · exact absurd (hr.symm.trans ht) (hs v)
    · obtain ⟨-, hpc, -⟩ := (s.setInputs is).afterFetch_fields
      obtain ⟨hlink, hpc'⟩ := (s.setInputs is).afterFetch.enterTrap_link w
      exact ⟨hlink.trans hpc, hpc'.trans hpc⟩
  · exact absurd ht (hs v)
  · cases ht
  · rcases hostAct_run_and_link hact hreset hstep with ⟨hr, -⟩ | ⟨⟨w, hw⟩, -⟩
    · exact absurd (hr.symm.trans ht) (hs v)
    · exact absurd hw (hs w)

/-- While a TRAP stays pending nothing moves its vector, R7 or PC (60_exceptions.md R224; the spec's decision
D23). -/
theorem step_stays_pending {s t : State} {v w : Byte} (hs : s.run = .trapPending v)
    (hkeeps : ∀ i ∈ s.inputs, i.keepsLink) (h : step s = .next t) (ht : t.run = .trapPending w) :
    w = v ∧ t.getReg Reg.link = s.getReg Reg.link ∧ t.pc = s.pc := by
  obtain ⟨is, -, ⟨hrun, -⟩ | ⟨-, rfl⟩ | ⟨-, rfl⟩ | ⟨i, hdue, hreset, hstep, hact⟩⟩ := step_next_cases h
  · rw [hs] at hrun; cases hrun
  · exact ⟨RunState.trapPending.inj (ht.symm.trans hs), rfl, rfl⟩
  · cases ht
  · rcases hostAct_run_and_link hact hreset hstep with ⟨hr, hlink⟩ | ⟨-, hend⟩
    · obtain ⟨hpc, hreg⟩ := hlink (hkeeps i (State.mem_inputs_of_due_head hdue))
      exact ⟨RunState.trapPending.inj (ht.symm.trans (hr.trans hs)), hreg, hpc⟩
    · exact absurd ht (hend w)

/-- Settles O46: a pending TRAP has just been entered, or was pending before and has not moved. -/
theorem stepKeepsPendingTrapPrecise : Obligations.StepKeepsPendingTrapPrecise := by
  unfold Obligations.StepKeepsPendingTrapPrecise
  refine ⟨fun s t ⟨hlink, hkeeps⟩ h => ⟨fun v ht => ?_, fun i hi => hkeeps i (step_inputs_subset h hi)⟩,
    fun s t v hs h ht => step_enters_pending hs h ht,
    fun s t v w ⟨_, hkeeps⟩ hs h ht => step_stays_pending hs hkeeps h ht⟩
  by_cases hs : ∃ w, s.run = .trapPending w
  · obtain ⟨w, hw⟩ := hs
    obtain ⟨-, hreg, hpc⟩ := step_stays_pending hw hkeeps h ht
    rw [hreg, hpc, hlink w hw]
  · obtain ⟨hreg, hpc⟩ := step_enters_pending (not_exists.1 hs) h ht
    rw [hreg, hpc]

/-! ### Events, parameters and the ends of a run -/

/-- Settles O47. -/
theorem stepReportsAtMostOneEvent : Obligations.StepReportsAtMostOneEvent := by
  unfold Obligations.StepReportsAtMostOneEvent
  intro s t h
  obtain ⟨is, -, ⟨-, hrun⟩ | ⟨-, rfl⟩ | ⟨-, rfl⟩ | ⟨i, -, hreset, hstep, hact⟩⟩ := step_next_cases h
  · obtain ⟨hparams, -, -, -, -, ⟨-, hevents⟩ | ⟨v, rfl⟩⟩ := runInstr_next hrun
    · exact ⟨hevents, hparams⟩
    · obtain ⟨-, -, -, -, -, -, -, -, hevents, -⟩ := (s.setInputs is).afterFetch_fields
      exact ⟨.inr ⟨.trapReq v, congrArg (· ++ [Event.trapReq v]) hevents⟩, hparams⟩
  · exact ⟨.inl rfl, rfl⟩
  · exact ⟨.inl rfl, rfl⟩
  · have hch := hostAct_changes hact hreset hstep
    exact ⟨hch.events, hch.params⟩

/-- A run state that a step changes to HALTED or ABORTED was a pending TRAP, which the due action ended. -/
theorem step_ends_run {s t : State} (h : step s = .next t) (hend : t.run = .halted ∨ t.run = .aborted)
    (hne : s.run ≠ t.run) :
    ∃ i v, s.due.head? = some i ∧ s.run = .trapPending v ∧ i.EndsTrap v t.run := by
  obtain ⟨is, -, ⟨hr, hrun⟩ | ⟨-, rfl⟩ | ⟨-, rfl⟩ | ⟨i, hdue, hreset, hstep, hact⟩⟩ := step_next_cases h
  · obtain ⟨-, -, -, -, -, ⟨e, -⟩ | ⟨v, rfl⟩⟩ := runInstr_next hrun
    · exact absurd e.symm hne
    · rcases hend with e | e <;> cases e
  · exact absurd rfl hne
  · rcases hend with e | e <;> cases e
  · rcases (hostAct_changes hact hreset hstep).run with e | ⟨v, hv, hends⟩
    · exact absurd e.symm hne
    · exact ⟨i, v, hdue, hv, hends⟩

/-- HALTED and ABORTED are left only by RESET (60_exceptions.md R214). -/
theorem step_keeps_ended {s t : State} (h : step s = .next t) (hend : s.run = .halted ∨ s.run = .aborted)
    (hno : s.due.head? ≠ some .reset) : t.run = s.run := by
  obtain ⟨is, -, ⟨hr, -⟩ | ⟨-, rfl⟩ | ⟨hdue, -⟩ | ⟨i, -, hreset, hstep, hact⟩⟩ := step_next_cases h
  · rcases hend with e | e <;> cases hr.symm.trans e
  · rfl
  · exact absurd hdue hno
  · rcases (hostAct_changes hact hreset hstep).run with e | ⟨v, hv, -⟩
    · exact e
    · rcases hend with e | e <;> cases hv.symm.trans e

/-- Settles O48: the ways a host action ends a pending TRAP, sorted by the run state they end in. -/
theorem runEndsOnlyThroughAPendingTrap : Obligations.RunEndsOnlyThroughAPendingTrap := by
  unfold Obligations.RunEndsOnlyThroughAPendingTrap
  refine fun s t h => ⟨fun ht hs => ?_, fun ht hs => ?_, step_keeps_ended h⟩
  · obtain ⟨i, v, hdue, hv, hends⟩ := step_ends_run h (.inl ht) (ht ▸ hs)
    obtain ⟨rest, hrest⟩ := List.head?_eq_some_iff.1 hdue
    rw [ht, HostInput.endsTrap_halted_iff] at hends
    rcases hends with rfl | ⟨c, rfl, hc⟩
    · exact ⟨v, rest, hv, .inl hrest⟩
    · exact ⟨v, rest, hv, .inr ⟨c, hrest, hc⟩⟩
  · obtain ⟨i, v, hdue, hv, hends⟩ := step_ends_run h (.inr ht) (ht ▸ hs)
    obtain ⟨rest, hrest⟩ := List.head?_eq_some_iff.1 hdue
    rw [ht, HostInput.endsTrap_aborted_iff] at hends
    rcases hends with rfl | ⟨c, rfl, hc⟩
    · exact ⟨v, rest, hv, .inl hrest⟩
    · exact ⟨v, rest, hv, .inr ⟨c, hrest, hc⟩⟩

/-! ### The boot stage -/

/-- Settles O57: an instruction notes the step, and no host action but RESET takes the note back. -/
theorem loaderActsOnlyBeforeTheFirstStep : Obligations.LoaderActsOnlyBeforeTheFirstStep := by
  unfold Obligations.LoaderActsOnlyBeforeTheFirstStep
  refine ⟨rfl, fun s image hs => (hostLoad_eq image s).2 hs, fun s t hr hi h => ?_, fun s t hs hno h => ?_⟩
  · have hrun : ∃ u, runInstr u = .next t := by
      rcases hi with hi | ⟨rest, hi⟩
      · exact ⟨s, (step_eq_exec hr hi).symm.trans h⟩
      · exact ⟨s.setInputs rest, (step_eq_exec_of_request hr hi).symm.trans h⟩
    obtain ⟨u, hu⟩ := hrun
    obtain ⟨-, hstepped, -⟩ := runInstr_next hu
    exact hstepped
  · obtain ⟨is, -, ⟨-, hrun⟩ | ⟨-, rfl⟩ | ⟨hdue, -⟩ | ⟨i, -, hreset, hstep, hact⟩⟩ := step_next_cases h
    · obtain ⟨-, hstepped, -⟩ := runInstr_next hrun
      exact hstepped
    · exact hs
    · exact absurd hdue hno
    · exact (hostAct_changes hact hreset hstep).stepped.trans hs

end Sys2Proof.Machine

/-! ## What each instruction does -/

namespace Sys2Proof.Machine

/-! ### Effective addresses (42_load_store.md R139) -/

@[simp] theorem State.pcRelative9_eq (s : State) (off : BitVec 9) :
    s.pcRelative9 off = s.pc + off.signExtend 16 := by
  rw [State.pcRelative9, offset9Operand_eq]

@[simp] theorem State.pcRelative11_eq (s : State) (off : BitVec 11) :
    s.pcRelative11 off = s.pc + off.signExtend 16 := by
  rw [State.pcRelative11, offset11Operand_eq]

@[simp] theorem State.baseOffset_eq (s : State) (base : Reg) (off : BitVec 6) :
    s.baseOffset base off = s.getReg base + off.signExtend 16 := by
  rw [State.baseOffset, offset6Operand_eq]

theorem State.indirect_plain {s : State} {off : BitVec 9}
    (h : s.isKeyboard (s.pc + off.signExtend 16) = false) :
    s.indirect off = s.mem.read (s.pc + off.signExtend 16) := by
  rw [State.indirect, s.pcRelative9_eq, (s.read_plain h).1]

theorem State.afterPointer_plain {s : State} {off : BitVec 9}
    (h : s.isKeyboard (s.pc + off.signExtend 16) = false) : s.afterPointer off = s := by
  rw [State.afterPointer, s.pcRelative9_eq, (s.read_plain h).2]

theorem State.afterRead_of_unwired {s : State} (h : s.params.kbdMmio = none) (a : Word) :
    s.afterRead a = s :=
  (s.read_plain (s.isKeyboard_of_none h a)).2

theorem State.readWord_of_unwired {s : State} (h : s.params.kbdMmio = none) (a : Word) :
    s.readWord a = s.mem.read a :=
  (s.read_plain (s.isKeyboard_of_none h a)).1

/-- Settles O30. -/
theorem effectiveAddressesAreTheTables : Obligations.EffectiveAddressesAreTheTables := by
  unfold Obligations.EffectiveAddressesAreTheTables
  exact ⟨State.pcRelative9_eq, fun _ _ h => State.indirect_plain h, State.baseOffset_eq,
    fun s off => ⟨fun r _ => s.afterRead_getReg _ r, s.afterRead_mem _, s.afterRead_pc _, s.afterRead_cond _⟩⟩

/-! ### One equation per instruction that writes a destination register -/

theorem exec_addReg (dr a b : Reg) (s : State) :
    exec (.addReg dr a b) s = .next (s.writeDest dr (s.getReg a + s.getReg b)) := rfl

theorem exec_addImm (dr a : Reg) (imm : BitVec 5) (s : State) :
    exec (.addImm dr a imm) s = .next (s.writeDest dr (s.getReg a + imm.signExtend 16)) := by
  rw [← immOperand_eq]
  rfl

theorem exec_andReg (dr a b : Reg) (s : State) :
    exec (.andReg dr a b) s = .next (s.writeDest dr (s.getReg a &&& s.getReg b)) := rfl

theorem exec_andImm (dr a : Reg) (imm : BitVec 5) (s : State) :
    exec (.andImm dr a imm) s = .next (s.writeDest dr (s.getReg a &&& imm.signExtend 16)) := by
  rw [← immOperand_eq]
  rfl

theorem exec_not (dr a : Reg) (s : State) :
    exec (.not dr a) s = .next (s.writeDest dr (~~~s.getReg a)) := rfl

theorem exec_lea (dr : Reg) (off : BitVec 9) (s : State) :
    exec (.lea dr off) s = .next (s.writeDest dr (s.pc + off.signExtend 16)) := by
  rw [← s.pcRelative9_eq]
  rfl

theorem exec_ld (dr : Reg) (off : BitVec 9) (s : State) :
    exec (.ld dr off) s = .next (s.loadFrom dr (s.pc + off.signExtend 16)) := by
  rw [← s.pcRelative9_eq]
  rfl

theorem exec_ldr (dr base : Reg) (off : BitVec 6) (s : State) :
    exec (.ldr dr base off) s = .next (s.loadFrom dr (s.getReg base + off.signExtend 16)) := by
  rw [← s.baseOffset_eq]
  rfl

theorem exec_ldi (dr : Reg) (off : BitVec 9) (s : State) :
    exec (.ldi dr off) s = .next ((s.afterPointer off).loadFrom dr (s.indirect off)) := rfl

theorem State.writeDest_getReg_self (s : State) (dr : Reg) (v : Word) : (s.writeDest dr v).getReg dr = v := by
  simp

theorem State.loadFrom_getReg_self (s : State) (dr : Reg) (a : Word) :
    (s.loadFrom dr a).getReg dr = s.readWord a :=
  (s.afterRead a).writeDest_getReg_self dr _

theorem State.loadFrom_cond (s : State) (dr : Reg) (a : Word) :
    (s.loadFrom dr a).cond = condOf ((s.loadFrom dr a).getReg dr) :=
  (s.afterRead a).writeDest_cond_eq_condOf_getReg dr _

/-! ### ADD, AND, NOT and LEA -/

/-- Settles O15: the sign of a word is its bit 15, which `condOf` looks at. -/
theorem flagsFollowTheSign : Obligations.FlagsFollowTheSign := by
  unfold Obligations.FlagsFollowTheSign
  intro s v
  have hsign : v.getLsbD 15 = v.msb := (BitVec.msb_eq_getLsbD_last v).symm
  refine ⟨rfl, fun h => if_pos h, fun h => ?_, fun h => ?_, fun _ _ => rfl, rfl, rfl, rfl, rfl, rfl, rfl, rfl, rfl⟩
  · have hne : v ≠ 0 := by rintro rfl; exact absurd h (by decide)
    rw [condOf, if_neg hne, hsign, BitVec.msb_eq_toInt, decide_eq_true h, if_pos rfl]
    rfl
  · have hne : v ≠ 0 := by rintro rfl; exact absurd h (by decide)
    rw [condOf, if_neg hne, hsign, BitVec.msb_eq_toInt, decide_eq_false (by omega), if_neg (by decide)]
    rfl

/-- Settles O17. -/
theorem addWritesTheWrappedSum : Obligations.AddWritesTheWrappedSum := by
  unfold Obligations.AddWritesTheWrappedSum
  refine ⟨fun dr a b s => ⟨_, exec_addReg dr a b s, ?_, s.writeDest_cond_eq_condOf_getReg dr _⟩,
    fun dr a imm s => ⟨_, exec_addImm dr a imm s, ?_, s.writeDest_cond_eq_condOf_getReg dr _⟩⟩
  · rw [s.writeDest_getReg_self, BitVec.toNat_add]
  · rw [s.writeDest_getReg_self, toNat_add_signExtend]

theorem getLsbD_signExtend_imm5 (imm : BitVec 5) {k : Nat} (hk : k < 16) :
    (imm.signExtend 16).getLsbD k = if k < 5 then imm.getLsbD k else imm.getLsbD 4 := by
  simp only [BitVec.getLsbD_signExtend, hk, decide_true, Bool.true_and, BitVec.msb_eq_getLsbD_last]

/-- Settles O18. -/
theorem andNotWorkBitByBit : Obligations.AndNotWorkBitByBit := by
  unfold Obligations.AndNotWorkBitByBit
  refine ⟨fun dr a b s => ⟨_, exec_andReg dr a b s, fun k _ => ?_, s.writeDest_cond_eq_condOf_getReg dr _⟩,
    fun dr a imm s => ⟨_, exec_andImm dr a imm s, fun k hk => ?_, fun k h5 hk => ?_,
      s.writeDest_cond_eq_condOf_getReg dr _⟩,
    fun dr a s => ⟨_, exec_not dr a s, fun k hk => ?_, s.writeDest_cond_eq_condOf_getReg dr _⟩⟩
  · rw [s.writeDest_getReg_self, BitVec.getLsbD_and]
  · rw [s.writeDest_getReg_self, BitVec.getLsbD_and, getLsbD_signExtend_imm5 imm (by omega), if_pos hk]
  · rw [s.writeDest_getReg_self, BitVec.getLsbD_and, getLsbD_signExtend_imm5 imm hk, if_neg (by omega)]
  · rw [s.writeDest_getReg_self, BitVec.getLsbD_not, decide_eq_true hk, Bool.true_and]

theorem State.sameRegsBut_writeDest (s : State) (dr : Reg) (v : Word) :
    SameRegsBut [dr] s (s.writeDest dr v) := fun r hr => by
  rw [s.writeDest_getReg, if_neg fun e => hr (List.mem_singleton.2 e)]

/-- Settles O19: each of the six forms is one `writeDest`. -/
theorem operateFrame : Obligations.OperateFrame := by
  unfold Obligations.OperateFrame
  intro i dr s t hi h
  have hdest : ∃ v, t = s.writeDest dr v := by
    rcases hi with ⟨_, _, rfl⟩ | ⟨_, _, rfl⟩ | ⟨_, _, rfl⟩ | ⟨_, _, rfl⟩ | ⟨_, rfl⟩ | ⟨_, rfl⟩ <;>
      cases h <;> exact ⟨_, rfl⟩
  obtain ⟨v, rfl⟩ := hdest
  exact ⟨s.sameRegsBut_writeDest dr v, fun _ _ => rfl, ⟨rfl, rfl, rfl, rfl, rfl, rfl⟩, rfl, rfl⟩

/-- Settles O20: NOT and ADD #1 negate, and ADD then subtracts. -/
theorem subtractionByComplement : Obligations.SubtractionByComplement := by
  unfold Obligations.SubtractionByComplement
  intro ra rb rd s hne
  refine ⟨_, _, _, exec_not rd rb s, exec_addImm rd rd 1 _, exec_addReg rd ra rd _, ?_⟩
  have hone : (1#5).signExtend 16 = 1#16 := by decide
  simp only [State.writeDest_getReg, if_true, if_neg hne]
  rw [BitVec.sub_eq_add_neg, BitVec.neg_eq_not_add]
  exact congrArg (fun x => s.getReg ra + (~~~s.getReg rb + x)) hone

/-! ### BR, JMP, JSR and JSRR -/

theorem exec_br (n z p : Bool) (off : BitVec 9) (s : State) :
    exec (.br n z p off) s =
      .next (if s.branchTaken n z p then s.setPc (s.pc + off.signExtend 16) else s) := by
  rw [← s.pcRelative9_eq]
  rfl

theorem exec_br_taken {n z p : Bool} {s : State} (h : s.branchTaken n z p = true) (off : BitVec 9) :
    exec (.br n z p off) s = .next (s.setPc (s.pc + off.signExtend 16)) := by
  rw [exec_br, if_pos h]

theorem exec_br_not_taken {n z p : Bool} {s : State} (h : s.branchTaken n z p = false) (off : BitVec 9) :
    exec (.br n z p off) s = .next s := by
  rw [exec_br, if_neg (by simp [h])]

theorem exec_jmp (base : Reg) (s : State) : exec (.jmp base) s = .next (s.setPc (s.getReg base)) := rfl

theorem exec_jsr (off : BitVec 11) (s : State) :
    exec (.jsr off) s = .next ((s.setReg 7 s.pc).setPc (s.pc + off.signExtend 16)) := by
  rw [← s.pcRelative11_eq]
  rfl

theorem exec_jsrr (base : Reg) (s : State) :
    exec (.jsrr base) s = .next ((s.setReg 7 s.pc).setPc
      (if s.params.jsrrLinkFirst then (s.setReg 7 s.pc).getReg base else s.getReg base)) := rfl

theorem condMask_and_ne_zero_iff : ∀ (n z p : Bool) (c : BitVec 3),
    (condMask n z p &&& c != 0) = true ↔
      (n = true ∧ c.getLsbD 2 = true) ∨ (z = true ∧ c.getLsbD 1 = true) ∨ (p = true ∧ c.getLsbD 0 = true) := by
  decide

theorem State.branchTaken_iff (s : State) (n z p : Bool) :
    s.branchTaken n z p = true ↔
      (n = true ∧ s.cond.getLsbD 2 = true) ∨ (z = true ∧ s.cond.getLsbD 1 = true) ∨
        (p = true ∧ s.cond.getLsbD 0 = true) := by
  rw [State.branchTaken, condMask_and_ne_zero_iff]
  simp only [BitVec.getLsbD_extractLsb']
  rfl

/-- Settles O21. -/
theorem branchTestsTheRequestedFlags : Obligations.BranchTestsTheRequestedFlags := by
  unfold Obligations.BranchTestsTheRequestedFlags
  intro n z p off s
  simp only [← s.branchTaken_iff]
  cases h : s.branchTaken n z p with
  | true => exact ⟨_, exec_br_taken h off, fun _ => rfl, fun hn => absurd rfl hn⟩
  | false => exact ⟨_, exec_br_not_taken h off, fun ht => absurd ht (by decide), fun _ => rfl⟩

/-- Settles O22. -/
theorem jumpsAndCallsReachTheirTargets : Obligations.JumpsAndCallsReachTheirTargets := by
  unfold Obligations.JumpsAndCallsReachTheirTargets
  exact ⟨fun base s => ⟨_, exec_jmp base s, rfl⟩,
    fun off s => ⟨_, exec_jsr off s, s.getReg_setReg_self 7 s.pc, rfl⟩⟩

/-- Settles O23: the link is seen by the read of BaseR when it comes first and BaseR is R7. -/
theorem registerCallFollowsTheLinkOrder : Obligations.RegisterCallFollowsTheLinkOrder := by
  unfold Obligations.RegisterCallFollowsTheLinkOrder
  intro base s
  refine ⟨_, exec_jsrr base s, s.getReg_setReg_self 7 s.pc, fun hne => ?_, ?_, ?_⟩
  · simp [s.getReg_setReg_of_ne s.pc hne]
  · rintro rfl hfirst
    simp [hfirst]
  · rintro rfl hlast
    simp [hlast]

theorem State.sameRegsBut_setReg (s : State) (r : Reg) (v : Word) : SameRegsBut [r] s (s.setReg r v) :=
  fun _ hq => s.getReg_setReg_of_ne v fun e => hq (List.mem_singleton.2 e)

/-- BR and JMP are at most one `setPc`. -/
theorem exec_jump_next {i : Instr} {s t : State} (hi : i.form = .br ∨ i.form = .jmp)
    (h : exec i s = .next t) : t = s ∨ ∃ a, t = s.setPc a := by
  cases i
  case br n z p off =>
    cases hb : s.branchTaken n z p with
    | true => rw [exec_br_taken hb] at h; cases h; exact .inr ⟨_, rfl⟩
    | false => rw [exec_br_not_taken hb] at h; cases h; exact .inl rfl
  case jmp base => cases h; exact .inr ⟨_, rfl⟩
  all_goals simp [Instr.form] at hi

/-- JSR and JSRR link R7 and set PC. -/
theorem exec_call_next {i : Instr} {s t : State} (hi : i.form = .jsr ∨ i.form = .jsrr)
    (h : exec i s = .next t) : ∃ a, t = (s.setReg 7 s.pc).setPc a := by
  cases i
  case jsr off => cases h; exact ⟨_, rfl⟩
  case jsrr base => cases h; exact ⟨_, rfl⟩
  all_goals simp [Instr.form] at hi

/-- Settles O24: the frames of `setPc` and `setReg 7`. -/
theorem controlFrame : Obligations.ControlFrame := by
  unfold Obligations.ControlFrame
  intro i s t h
  refine ⟨fun hi => ?_, fun hi => ?_⟩
  · rcases exec_jump_next hi h with rfl | ⟨a, rfl⟩ <;> exact fun _ _ => rfl
  · rcases or_assoc.2 hi with hjump | hcall
    · rcases exec_jump_next hjump h with rfl | ⟨a, rfl⟩ <;>
        exact ⟨fun _ _ => rfl, rfl, fun _ _ => rfl, ⟨rfl, rfl, rfl, rfl, rfl, rfl⟩, rfl⟩
    · obtain ⟨a, rfl⟩ := exec_call_next hcall h
      exact ⟨s.sameRegsBut_setReg 7 s.pc, rfl, fun _ _ => rfl, ⟨rfl, rfl, rfl, rfl, rfl, rfl⟩, rfl⟩

/-- Settles O25: a call leaves its own PC in R7, and RET jumps to R7. -/
theorem returnContinuesAfterTheCall : Obligations.ReturnContinuesAfterTheCall := by
  unfold Obligations.ReturnContinuesAfterTheCall
  intro call s t body u hcall ht hbody hu
  obtain ⟨a, rfl⟩ := exec_call_next hcall ht
  rw [exec_jmp] at hu
  cases hu
  exact hbody.trans (s.getReg_setReg_self 7 s.pc)

end Sys2Proof.Machine

/-! ## Loads, stores and the system instructions -/

namespace Sys2Proof.Machine

/-! ### LD, LDI and LDR -/

/-- Settles O26. -/
theorem loadsWriteTheAddressedWord : Obligations.LoadsWriteTheAddressedWord := by
  unfold Obligations.LoadsWriteTheAddressedWord
  refine ⟨fun dr off s => ⟨_, exec_ld dr off s, s.loadFrom_getReg_self dr _, s.loadFrom_cond dr _⟩,
    fun dr off s hk => ⟨_, exec_ldi dr off s, ?_, State.loadFrom_cond _ dr _⟩,
    fun dr base off s => ⟨_, exec_ldr dr base off s, s.loadFrom_getReg_self dr _, s.loadFrom_cond dr _⟩,
    fun dr off s => ⟨_, exec_lea dr off s, s.writeDest_getReg_self dr _,
      s.writeDest_cond_eq_condOf_getReg dr _⟩⟩
  rw [State.loadFrom_getReg_self, State.afterPointer_plain hk, State.indirect_plain hk]

theorem State.afterRead_keyboard {s : State} {a : Word} (h : s.isKeyboard a = true) :
    s.afterRead a = s.countDraw := by
  rw [State.afterRead, if_pos h]

theorem State.afterRead_draws_of_unwired {s : State} (h : s.params.kbdMmio = none) (a : Word) :
    (s.afterRead a).draws = s.draws := by
  rw [State.afterRead_of_unwired h]

theorem State.loadFrom_draws (s : State) (dr : Reg) (a : Word) :
    (s.loadFrom dr a).draws = (s.afterRead a).draws := rfl

/-- Settles O27: the pointer's read draws one answer, and a second keyboard word draws the next. -/
theorem indirectLoadThroughTheKeyboard : Obligations.IndirectLoadThroughTheKeyboard := by
  unfold Obligations.IndirectLoadThroughTheKeyboard
  intro dr off s hk
  have hptr : s.indirect off = Config.hostRead s.draws := by
    rw [State.indirect, s.pcRelative9_eq, State.readWord_keyboard hk]
  have hafter : s.afterPointer off = s.countDraw := by
    rw [State.afterPointer, s.pcRelative9_eq, State.afterRead_keyboard hk]
  have hexec := exec_ldi dr off s
  rw [hptr, hafter] at hexec
  refine ⟨_, hexec, fun hplain => ?_, fun hkey => ?_, State.loadFrom_cond _ dr _⟩
  · obtain ⟨hread, hstay⟩ := s.countDraw.read_plain ((s.countDraw_isKeyboard _).trans hplain)
    rw [State.loadFrom_getReg_self, State.loadFrom_draws, hread, hstay]
    exact ⟨rfl, rfl⟩
  · have hkey' := (s.countDraw_isKeyboard (Config.hostRead s.draws)).trans hkey
    rw [State.loadFrom_getReg_self, State.loadFrom_draws, State.readWord_keyboard hkey',
      State.afterRead_keyboard hkey']
    exact ⟨rfl, rfl⟩

/-- Every load ends by loading from some address, LDI after reading its pointer at another. -/
theorem exec_load_next {i : Instr} {dr : Reg} {s t : State}
    (hi : (∃ o, i = .ld dr o) ∨ (∃ o, i = .ldi dr o) ∨ (∃ b o, i = .ldr dr b o))
    (h : exec i s = .next t) : ∃ u a, (u = s ∨ ∃ p, u = s.afterRead p) ∧ t = u.loadFrom dr a := by
  rcases hi with ⟨o, rfl⟩ | ⟨o, rfl⟩ | ⟨b, o, rfl⟩ <;> cases h
  · exact ⟨s, _, .inl rfl, rfl⟩
  · exact ⟨_, _, .inr ⟨_, rfl⟩, rfl⟩
  · exact ⟨s, _, .inl rfl, rfl⟩

theorem State.loadFrom_frame (s : State) (dr : Reg) (a : Word) :
    SameRegsBut [dr] s (s.loadFrom dr a) ∧ SameMemoryBut [] s (s.loadFrom dr a) ∧
      SameControl s (s.loadFrom dr a) ∧ (s.loadFrom dr a).pc = s.pc ∧
      (s.params.kbdMmio = none → (s.loadFrom dr a).draws = s.draws) :=
  ⟨fun r hr => ((s.afterRead a).sameRegsBut_writeDest dr _ r hr).trans (s.afterRead_getReg a r),
    fun b _ => congrArg (Memory.read · b) (s.afterRead_mem a), s.sameControl_afterRead a, s.afterRead_pc a,
    fun hk => State.afterRead_draws_of_unwired hk a⟩

theorem sameControl_trans {s t u : State} (h : SameControl s t) (h' : SameControl t u) : SameControl s u := by
  obtain ⟨hrun, hparams, hstepped, hinputs, hevents, houtput⟩ := h
  obtain ⟨hrun', hparams', hstepped', hinputs', hevents', houtput'⟩ := h'
  exact ⟨hrun'.trans hrun, hparams'.trans hparams, hstepped'.trans hstepped, hinputs'.trans hinputs,
    hevents'.trans hevents, houtput'.trans houtput⟩

/-- Settles O28: the frame of `loadFrom`, for LDI after that of the pointer's read. -/
theorem loadFrame : Obligations.LoadFrame := by
  unfold Obligations.LoadFrame
  intro i dr s t hi h
  obtain ⟨u, a, hu, rfl⟩ := exec_load_next hi h
  obtain ⟨hregs, hmem, hcontrol, hpc, hdraws⟩ := u.loadFrom_frame dr a
  rcases hu with rfl | ⟨p, rfl⟩
  · exact ⟨hregs, hmem, hcontrol, hpc, hdraws⟩
  · exact ⟨fun r hr => (hregs r hr).trans (s.afterRead_getReg p r),
      fun b hb => (hmem b hb).trans (congrArg (Memory.read · b) (s.afterRead_mem p)),
      sameControl_trans (s.sameControl_afterRead p) hcontrol, hpc.trans (s.afterRead_pc p),
      fun hk => (hdraws ((congrArg _ (s.afterRead_params p)).trans hk)).trans
        (State.afterRead_draws_of_unwired hk p)⟩

/-! ### ST, STI and STR -/

theorem exec_st (sr : Reg) (off : BitVec 9) (s : State) :
    exec (.st sr off) s = s.writeWord (s.pcRelative9 off) (s.getReg sr) := rfl

theorem exec_sti (sr : Reg) (off : BitVec 9) (s : State) :
    exec (.sti sr off) s = (s.afterPointer off).writeWord (s.indirect off) (s.getReg sr) := rfl

theorem exec_str (sr base : Reg) (off : BitVec 6) (s : State) :
    exec (.str sr base off) s = s.writeWord (s.baseOffset base off) (s.getReg sr) := rfl

/-- What a write to an address does, keyboard word or not. -/
theorem State.writeWord_spec (s : State) (a v : Word) :
    (s.isKeyboard a = true → s.writeWord a v = .refused (.keyboardStore a)) ∧
    (s.isKeyboard a = false → ∃ t, s.writeWord a v = .next t ∧ t.mem.read a = v ∧ SameMemoryBut [a] s t) :=
  ⟨State.writeWord_keyboard v, fun h =>
    ⟨_, s.writeWord_plain v h, s.mem.read_write_self a v, s.sameMemoryBut_setMem_write a v⟩⟩

/-- Settles O29: each store is one `writeWord` at its address; STI's pointer read leaves memory and the
keyboard words as they are. -/
theorem storesWriteOneWord : Obligations.StoresWriteOneWord := by
  unfold Obligations.StoresWriteOneWord
  refine ⟨?_, ?_, ?_⟩
  · rintro sr off s a rfl
    rw [exec_st]
    exact s.writeWord_spec _ _
  · rintro sr off s a rfl
    obtain ⟨hkey, hplain⟩ := (s.afterPointer off).writeWord_spec (s.indirect off) (s.getReg sr)
    have hk : (s.afterPointer off).isKeyboard = s.isKeyboard := funext (s.afterRead_isKeyboard _)
    have hm : (s.afterPointer off).mem = s.mem := s.afterRead_mem _
    rw [hk] at hkey hplain
    simp only [SameMemoryBut, hm] at hplain
    rw [exec_sti]
    exact ⟨hkey, hplain⟩
  · rintro sr base off s a rfl
    rw [exec_str]
    exact s.writeWord_spec _ _

/-- A store that answers has written one word, STI after reading its pointer. -/
theorem exec_store_next {i : Instr} {s t : State} (hi : i.form = .st ∨ i.form = .sti ∨ i.form = .str)
    (h : exec i s = .next t) : ∃ u m, (u = s ∨ ∃ p, u = s.afterRead p) ∧ t = u.setMem m := by
  cases i
  case st sr off => obtain ⟨_, rfl⟩ := State.writeWord_next h; exact ⟨s, _, .inl rfl, rfl⟩
  case sti sr off => obtain ⟨_, rfl⟩ := State.writeWord_next h; exact ⟨_, _, .inr ⟨_, rfl⟩, rfl⟩
  case str sr base off => obtain ⟨_, rfl⟩ := State.writeWord_next h; exact ⟨s, _, .inl rfl, rfl⟩
  all_goals simp [Instr.form] at hi

/-- Settles O31: the frames of a read and of `setMem`. -/
theorem storeFrame : Obligations.StoreFrame := by
  unfold Obligations.StoreFrame
  intro i s t hi h
  obtain ⟨u, m, rfl | ⟨p, rfl⟩, rfl⟩ := exec_store_next hi h
  · exact ⟨fun _ _ => rfl, rfl, rfl, u.sameControl_setMem m, fun _ => rfl⟩
  · exact ⟨fun r _ => s.afterRead_getReg p r, s.afterRead_cond p, s.afterRead_pc p, s.sameControl_afterRead p,
      fun hk => State.afterRead_draws_of_unwired hk p⟩

theorem State.setMem_readWord_of_unwired {s : State} (h : s.params.kbdMmio = none) (m : Memory) (a : Word) :
    (s.setMem m).readWord a = m.read a :=
  State.readWord_of_unwired (s := s.setMem m) h a

/-- Settles O32: LDR computes the address STR wrote, since a store changes no register. -/
theorem loadReadsBackTheStoredWord : Obligations.LoadReadsBackTheStoredWord := by
  unfold Obligations.LoadReadsBackTheStoredWord
  intro sr base dr off s hk
  have hstr : exec (.str sr base off) s =
      .next (s.setMem (s.mem.write (s.getReg base + off.signExtend 16) (s.getReg sr))) := by
    rw [exec_str, s.baseOffset_eq, s.writeWord_plain _ (s.isKeyboard_of_none hk _)]
  refine ⟨_, _, hstr, exec_ldr dr base off _, ?_⟩
  rw [State.loadFrom_getReg_self, State.setMem_readWord_of_unwired hk]
  exact Memory.read_write_self _ _ _

/-! ### TRAP, RTI and RES -/

/-- Settles O34: the frame of `enterTrap`. -/
theorem trapHandsOverTheVector : Obligations.TrapHandsOverTheVector := by
  unfold Obligations.TrapHandsOverTheVector
  intro vect s
  exact ⟨s.enterTrap vect, rfl, s.getReg_setReg_self 7 s.pc, s.sameRegsBut_setReg 7 s.pc, rfl, rfl,
    fun _ _ => rfl, rfl, rfl, rfl, rfl, rfl, rfl, rfl⟩

/-- Settles O36: the frame of `signal`. -/
theorem diagnosticReportsAddressAndWord : Obligations.DiagnosticReportsAddressAndWord := by
  unfold Obligations.DiagnosticReportsAddressAndWord
  intro ir s
  exact ⟨⟨s.signal (.diagRti (s.pc - 1) ir), rfl, rfl, rfl, rfl, fun _ _ => rfl, fun _ _ => rfl, rfl, rfl, rfl,
      rfl, rfl, rfl⟩,
    ⟨s.signal (.diagRes (s.pc - 1) ir), rfl, rfl, rfl, rfl, fun _ _ => rfl, fun _ _ => rfl, rfl, rfl, rfl, rfl,
      rfl, rfl⟩⟩

/-- Settles O37: by `exec_next` an instruction keeps the run state or is a TRAP that pends its vector. -/
theorem onlyTrapLeavesTheCore : Obligations.OnlyTrapLeavesTheCore := by
  unfold Obligations.OnlyTrapLeavesTheCore
  intro i s t h hne
  obtain ⟨-, -, -, -, -, -, ⟨hrun, -⟩ | ⟨v, rfl, rfl⟩⟩ := exec_next h
  · exact absurd hrun hne
  · exact ⟨v, rfl, rfl⟩

/-! ### Completion and PC -/

theorem exec_next_of_not_store {i : Instr} (hi : ¬(i.form = .st ∨ i.form = .sti ∨ i.form = .str))
    (s : State) : ∃ t, exec i s = .next t := by
  cases i
  case st | sti | str => simp [Instr.form] at hi
  all_goals exact ⟨_, rfl⟩

/-- Settles O13: only a store can be refused, and only by a wired keyboard word. -/
theorem everyInstructionCompletes : Obligations.EveryInstructionCompletes := by
  unfold Obligations.EveryInstructionCompletes
  intro i s
  by_cases hi : i.form = .st ∨ i.form = .sti ∨ i.form = .str
  · exact (exec_next_or_refused i s).imp_right fun ⟨a, hk, e⟩ => ⟨a, hk, e, hi⟩
  · exact .inl (exec_next_of_not_store hi s)

theorem State.afterFetch_pc_toNat (s : State) : s.afterFetch.pc.toNat = (s.pc.toNat + 1) % 65536 :=
  BitVec.toNat_add s.pc 1

theorem exec_br_pc {n z p : Bool} {off : BitVec 9} {s t : State} (hb : s.branchTaken n z p = false)
    (h : exec (.br n z p off) s = .next t) : t.pc = s.pc := by
  rw [exec_br_not_taken hb] at h
  cases h
  rfl

/-- An instruction other than BR, JMP, JSR and JSRR does not write PC; only the loads and STI change a field
by reading memory, which is not PC. -/
theorem exec_pc_of_no_transfer {i : Instr} {s t : State} (hbr : i.form ≠ .br) (hjmp : i.form ≠ .jmp)
    (hjsr : i.form ≠ .jsr) (hjsrr : i.form ≠ .jsrr) (h : exec i s = .next t) : t.pc = s.pc := by
  cases i
  case br | jmp | jsr | jsrr => contradiction
  case addReg | addImm | andReg | andImm | not | lea | rti | res | trap => cases h; rfl
  case ld | ldr => cases h; exact s.afterRead_pc _
  case ldi => cases h; exact (State.afterRead_pc _ _).trans (s.afterRead_pc _)
  case st | str => obtain ⟨_, rfl⟩ := State.writeWord_next h; rfl
  case sti => obtain ⟨_, rfl⟩ := State.writeWord_next h; exact s.afterRead_pc _

/-- Settles O11: the fetch's increment, the four transfers' targets, and that nothing else writes PC. -/
theorem onlyControlTransfersWritePc : Obligations.OnlyControlTransfersWritePc := by
  unfold Obligations.OnlyControlTransfersWritePc
  refine ⟨fun s hr hi => ?_, fun n z p off s hb => ⟨_, exec_br_taken hb off, rfl⟩,
    fun base s => ⟨_, exec_jmp base s, rfl⟩, fun off s => ⟨_, exec_jsr off s, rfl⟩,
    fun base s => ⟨_, exec_jsrr base s, fun hfirst => if_pos hfirst, fun hlast => if_neg (by simp [hlast])⟩,
    State.afterFetch_pc_toNat, fun s hpc => ?_, fun i s t h hjmp hjsr hjsrr hbr => ?_⟩
  · rcases hi with hi | ⟨rest, hi⟩
    · exact ⟨_, step_eq_exec hr hi, s.afterFetch_pc_toNat⟩
    · exact ⟨_, step_eq_exec_of_request (rest := rest) hr hi, (s.setInputs rest).afterFetch_pc_toNat⟩
  · obtain ⟨-, hnext, -⟩ := s.afterFetch_fields
    rw [hnext, hpc]
    rfl
  · cases i
    case br n z p off => exact exec_br_pc (hbr n z p off rfl) h
    all_goals exact exec_pc_of_no_transfer (by simp [Instr.form]) hjmp hjsr hjsrr h

end Sys2Proof.Machine

/-! ## Canonical memory, power-on and reset -/

namespace Sys2Proof.Machine

/-! ### A canonical memory is the list of its entries -/

theorem Memory.readAt_of_mem {m : Memory} {k : Nat} {v : Word}
    (hs : m.Pairwise fun x y => x.1 < y.1) (h : (k, v) ∈ m) : m.readAt k = v := by
  induction m with
  | nil => cases h
  | cons e rest ih =>
    obtain ⟨hhead, htail⟩ := List.pairwise_cons.1 hs
    rcases List.mem_cons.1 h with rfl | hrest
    · exact if_pos rfl
    · exact (if_neg (hhead _ hrest).ne).trans (ih htail hrest)

theorem Memory.mem_of_readAt {m : Memory} {k : Nat} (hs : m.Pairwise fun x y => x.1 < y.1)
    (h : m.readAt k ≠ Memory.unlisted) : (k, m.readAt k) ∈ m := by
  by_contra hno
  refine h (Memory.readAt_of_absent m k fun e he hk => hno ?_)
  obtain ⟨k', v⟩ := e
  obtain rfl : k' = k := hk
  rwa [Memory.readAt_of_mem hs he]

/-- A canonical memory has no entry that another, which reads alike, does not have. -/
theorem Memory.subset_of_read_eq {m m' : Memory} (hm : m.wf) (hm' : m'.wf)
    (h : ∀ a : Word, m.read a = m'.read a) : m ⊆ m' := by
  rintro ⟨k, v⟩ he
  obtain ⟨hk, hv⟩ := hm.2 _ he
  have hread : m'.readAt k = v := by
    have ha := h (BitVec.ofNat 16 k)
    rw [Memory.read, Memory.read, BitVec.toNat_ofNat, Nat.mod_eq_of_lt hk] at ha
    rw [← ha, Memory.readAt_of_mem hm.1 he]
  have hmem := Memory.mem_of_readAt (k := k) hm'.1 (by rwa [hread])
  rwa [hread] at hmem

theorem Memory.eq_of_read_eq {m m' : Memory} (hm : m.wf) (hm' : m'.wf)
    (h : ∀ a : Word, m.read a = m'.read a) : m = m' := by
  have hirrefl : Std.Irrefl fun x y : Nat × Word => x.1 < y.1 := ⟨fun x => lt_irrefl x.1⟩
  have hantisymm : Std.Antisymm fun x y : Nat × Word => x.1 < y.1 :=
    ⟨fun _ _ hxy hyx => absurd hxy hyx.asymm⟩
  exact List.Subset.antisymm_of_pairwise hm.1 hm'.1 (Memory.subset_of_read_eq hm hm' h)
    (Memory.subset_of_read_eq hm' hm fun a => (h a).symm)

/-- Settles O40: both lists are sorted and each has the other's entries. -/
theorem canonicalMemoriesThatReadAlikeAreEqual : Obligations.CanonicalMemoriesThatReadAlikeAreEqual := by
  unfold Obligations.CanonicalMemoriesThatReadAlikeAreEqual
  exact fun _ _ hm hm' h => Memory.eq_of_read_eq hm hm' h

/-! ### Power-on -/

theorem powerOn_getReg (g : Reg → Word) (m : Word → Word) (p : Params) (r : Reg) :
    (powerOn g m p).getReg r = g r := by
  simp [State.getReg, powerOn]

theorem powerOn_mem_wf (g : Reg → Word) (m : Word → Word) (p : Params) : (powerOn g m p).mem.wf :=
  (Memory.ofFn_spec m).1

theorem powerOn_mem_read (g : Reg → Word) (m : Word → Word) (p : Params) (a : Word) :
    (powerOn g m p).mem.read a = m a :=
  (Memory.ofFn_spec m).2 a

/-- The zero memory is the empty list, since both are canonical and read alike. -/
theorem reset_eq_powerOn : State.reset = powerOn (fun _ => 0) (fun _ => 0) Params.default := by
  have hmem : ([] : Memory) = Memory.ofFn fun _ => 0 :=
    Memory.eq_of_read_eq Memory.wf_nil (Memory.ofFn_spec _).1 fun a => ((Memory.ofFn_spec _).2 a).symm
  exact State.ext_fields (by decide) rfl rfl hmem rfl rfl rfl rfl rfl rfl rfl

/-- Settles O41. -/
theorem powerOnCoversEveryParameter : Obligations.PowerOnCoversEveryParameter := by
  unfold Obligations.PowerOnCoversEveryParameter
  exact ⟨fun g m p => ⟨rfl, rfl, rfl, powerOn_getReg g m p, powerOn_mem_read g m p, powerOn_mem_wf g m p, rfl⟩,
    reset_eq_powerOn⟩

theorem powerOn_flagsInv (g : Reg → Word) (m : Word → Word) (p : Params) : (powerOn g m p).flagsInv :=
  ⟨.inr (.inl rfl), fun _ h => absurd h List.not_mem_nil⟩

theorem powerOn_linkInv (g : Reg → Word) (m : Word → Word) (p : Params) : (powerOn g m p).linkInv :=
  ⟨fun _ h => RunState.noConfusion h, fun _ h => absurd h List.not_mem_nil⟩

/-- Settles O43: power-on meets the invariants, and State.reset is a power-on. -/
theorem resetMeetsTheInvariants : Obligations.ResetMeetsTheInvariants := by
  unfold Obligations.ResetMeetsTheInvariants
  rw [reset_eq_powerOn]
  exact ⟨fun g m p => ⟨powerOn_mem_wf g m p, powerOn_flagsInv g m p, powerOn_linkInv g m p⟩,
    powerOn_mem_wf _ _ _, powerOn_flagsInv _ _ _, powerOn_linkInv _ _ _⟩

/-- Settles O42: the step is `resetSignal`, whatever the run state was. -/
theorem resetKeepsRegistersAndMemory : Obligations.ResetKeepsRegistersAndMemory := by
  unfold Obligations.ResetKeepsRegistersAndMemory
  intro s rest hdue
  exact ⟨(s.setInputs (s.held ++ rest)).resetSignal, step_due hdue, rfl, rfl, rfl, fun _ _ => rfl, rfl, rfl, rfl,
    rfl, rfl, rfl, rfl⟩

end Sys2Proof.Machine

/-! ## Which step is taken -/

namespace Sys2Proof.Machine

theorem step_eq_exec_plain {s : State} (hr : s.run = .running) (hi : s.inputs = [])
    (hk : s.isKeyboard s.pc = false) :
    step s = exec (decode (s.mem.read s.pc)) ((s.setPc (s.pc + 1)).setStepped true) := by
  rw [step_eq_exec hr hi, State.fetchWord_plain hk, State.afterFetch_plain hk]

/-- `ST SR, #0` stores at the PC it is executed with, which is the next instruction's address. -/
theorem exec_st_zero {s : State} (hk : s.isKeyboard s.pc = false) (sr : Reg) :
    exec (.st sr 0) s = .next (s.setMem (s.mem.write s.pc (s.getReg sr))) := by
  have haddr : s.pcRelative9 0 = s.pc := by
    rw [s.pcRelative9_eq]
    exact BitVec.add_zero _
  rw [exec_st, haddr, s.writeWord_plain _ hk]

/-- Settles O33: the store writes the word at the incremented PC, which the next step fetches. -/
theorem storeIsSeenByTheNextFetch : Obligations.StoreIsSeenByTheNextFetch := by
  unfold Obligations.StoreIsSeenByTheNextFetch
  intro s sr hr hi hk hdecode
  have hkey := s.isKeyboard_of_none hk
  have hpc : s.pc + 1 + 1 = s.pc + 2 := BitVec.add_assoc s.pc 1 1
  have hstore := exec_st_zero (s := (s.setPc (s.pc + 1)).setStepped true) (hkey _) sr
  refine ⟨_, (step_eq_exec_plain hr hi (hkey s.pc)).trans (hdecode ▸ hstore), ?_⟩
  rw [step_eq_exec_plain ?run ?inputs ?plain]
  case run => exact hr
  case inputs => exact hi
  case plain => exact hkey _
  simp only [State.setMem_mem, State.setMem_pc, State.setStepped_pc, State.setPc_pc, Memory.read_write_self, hpc]
  rfl

theorem State.fetchesMemory_spec (s : State) :
    s.fetchesMemory.regs = s.regs ∧ s.fetchesMemory.pc = s.pc ∧ s.fetchesMemory.cond = s.cond ∧
      s.fetchesMemory.mem = s.mem ∧ s.fetchesMemory.isKeyboard s.pc = false := by
  unfold State.fetchesMemory
  cases hk : s.isKeyboard s.pc with
  | true => exact ⟨rfl, rfl, rfl, rfl, rfl⟩
  | false => exact ⟨rfl, rfl, rfl, rfl, hk⟩

theorem tableWord_toNat (w : Word) : tableWord 16 w.toNat = w := by
  rw [tableWord, Nat.mod_eq_of_lt w.isLt, BitVec.ofNat_toNat, BitVec.setWidth_eq]

theorem State.placeWord_spec (s : State) (w : Word) :
    (s.placeWord w).regs = s.regs ∧ (s.placeWord w).pc = s.pc ∧ (s.placeWord w).cond = s.cond ∧
      (s.placeWord w).mem = s.mem.write s.pc w ∧ (s.placeWord w).isKeyboard s.pc = false := by
  obtain ⟨hregs, hpc, hcond, hmem, hk⟩ := s.fetchesMemory_spec
  exact ⟨hregs, hpc, hcond, congrArg₂ (Memory.write · · w) hmem hpc, hk⟩

/-- Settles O10: the fetch reads the placed word from memory. -/
theorem placedWordRunsNext : Obligations.PlacedWordRunsNext := by
  unfold Obligations.PlacedWordRunsNext
  intro s w
  rw [State.withFetchWord, tableWord_toNat]
  obtain ⟨hregs, hpc, hcond, hmem, hk⟩ := s.placeWord_spec w
  refine ⟨((s.placeWord w).setPc (s.pc + 1)).setStepped true, ?_, rfl, hregs, hcond, rfl, ?_, fun a ha => ?_⟩
  · rw [step_eq_exec_plain rfl rfl (by rwa [hpc]), hpc, hmem, Memory.read_write_self]
  · rw [State.setStepped_mem, State.setPc_mem, hmem, Memory.read_write_self]
  · rw [State.setStepped_mem, State.setPc_mem, hmem, Memory.read_write_of_ne _ _ ha]

theorem coreStep_not_running {s : State} (h : s.run ≠ .running) : coreStep s = .next s := by
  cases hr : s.run with
  | running => exact absurd hr h
  | trapPending v => simp [coreStep, hr]
  | halted => simp [coreStep, hr]
  | aborted => simp [coreStep, hr]

theorem idleStep_aborted {s : State} (h : s.run = .aborted) : idleStep s = .fault .aborted := by
  simp [idleStep, h]

theorem idleStep_eq_coreStep {s : State} (h : s.run ≠ .aborted) : idleStep s = coreStep s := by
  cases hr : s.run with
  | aborted => exact absurd hr h
  | running => simp [idleStep, hr]
  | trapPending v => simp [idleStep, hr]
  | halted => simp [idleStep, hr]

/-- Settles O12: outside RUNNING a core step keeps the state; in TRAP_PENDING the STEP requests are held, so
that nothing is due. -/
theorem nonRunningCoreExecutesNothing : Obligations.NonRunningCoreExecutesNothing := by
  unfold Obligations.NonRunningCoreExecutesNothing
  refine ⟨fun s rest hr hi => ?_, fun s v n hr hi => ?_, fun s hr hi => ?_, fun s hr hi => ?_⟩
  · have hnp : ∀ v, s.run ≠ .trapPending v := by rcases hr with e | e <;> simp [e]
    have hnr : s.run ≠ .running := by rcases hr with e | e <;> simp [e]
    rw [step_cons hnp hi]
    exact coreStep_not_running (s := s.setInputs rest) hnr
  · obtain ⟨-, hdue⟩ := s.due_of_steps (rest := []) hr (by rw [hi, List.append_nil]) (by simp)
    rw [step_idle hdue, idleStep_eq_coreStep (by simp [hr]), coreStep_not_running (by simp [hr])]
  · rw [step_nil hi, idleStep_eq_coreStep (by simp [hr]), coreStep_not_running (by simp [hr])]
  · rw [step_nil hi, idleStep_aborted hr]

/-- In TRAP_PENDING the first action that is no STEP is taken, and the STEP requests before it stay first. -/
theorem step_past_held {s : State} {v : Byte} {n : Nat} {i : HostInput} {rest : List HostInput}
    (hr : s.run = .trapPending v) (hi : s.inputs = List.replicate n .step ++ i :: rest) (hne : i ≠ .step) :
    step s = hostAct i (s.setInputs (List.replicate n .step ++ rest)) := by
  obtain ⟨hheld, hdue⟩ := s.due_of_steps hr hi (by simpa using hne)
  rw [step_due hdue, hheld]

/-- Settles O55: after RESUME the held request stands first, so that it runs the next instruction. -/
theorem stepRequestIsHeldUntilTheAnswer : Obligations.StepRequestIsHeldUntilTheAnswer := by
  unfold Obligations.StepRequestIsHeldUntilTheAnswer
  refine ⟨fun s i rest hr hi => step_cons hr hi, fun s v n i rest hr hi hne => step_past_held hr hi hne,
    fun s v rest hr hi => ?_⟩
  refine ⟨(s.setRun .running).setInputs (.step :: rest), ?_, rfl, step_eq_exec_of_request (rest := rest) rfl rfl⟩
  rw [step_past_held (n := 1) hr hi (by decide)]
  exact hostResume_pending (s := s.setInputs (.step :: rest)) hr

end Sys2Proof.Machine

/-! ## The host's signals, services, ports and loader -/

namespace Sys2Proof.Machine

/-! ### Signals (60_exceptions.md R205, R211 to R213) -/

/-- A signal or service with no TRAP pending is refused. -/
theorem hostAct_signal_refused {s : State} (h : ∀ v, s.run ≠ .trapPending v) {i : HostInput}
    (hi : i = .resume ∨ i = .halt ∨ i = .abort ∨ ∃ c, i = .serve c) :
    hostAct i s = .refused .signalNotAccepted := by
  cases hr : s.run with
  | trapPending v => exact absurd hr (h v)
  | running | halted | aborted =>
    rcases hi with rfl | rfl | rfl | ⟨c, rfl⟩ <;>
      simp [hostAct, hostResume, hostHalt, hostAbort, hostServe, hr]

/-- Settles O49. -/
theorem signalsEndAPendingTrap : Obligations.SignalsEndAPendingTrap := by
  unfold Obligations.SignalsEndAPendingTrap
  exact ⟨fun s v h => ⟨hostResume_pending h, hostHalt_pending h, hostAbort_pending h⟩,
    fun s h i hi => hostAct_signal_refused h hi⟩

/-! ### The services that take or print one character, and the two ends -/

/-- What GETC and IN do with the character (60_exceptions.md R217). -/
theorem State.inputChar_spec (s : State) (c : Byte) :
    ((s.inputChar c).getReg 0).toNat = c.toNat ∧ SameRegsBut [0] s (s.inputChar c) ∧
      (s.inputChar c).pc = s.pc ∧ (s.inputChar c).mem = s.mem ∧ (s.inputChar c).run = s.run ∧
      (s.inputChar c).events = s.events ∧ (s.inputChar c).output = s.output ∧
      (s.params.trapInputSetsFlags = true → (s.inputChar c).cond = condOf ((s.inputChar c).getReg 0)) ∧
      (s.params.trapInputSetsFlags = false → (s.inputChar c).cond = s.cond) := by
  have hzext := zext16_toNat (by decide) c
  unfold State.inputChar
  cases s.params.trapInputSetsFlags with
  | true =>
    exact ⟨(congrArg BitVec.toNat (s.writeDest_getReg_self 0 _)).trans hzext, s.sameRegsBut_writeDest 0 _, rfl, rfl,
      rfl, rfl, rfl, fun _ => s.writeDest_cond_eq_condOf_getReg 0 _, fun h => Bool.noConfusion h⟩
  | false =>
    exact ⟨(congrArg BitVec.toNat (s.getReg_setReg_self 0 _)).trans hzext, s.sameRegsBut_setReg 0 _, rfl, rfl,
      rfl, rfl, rfl, fun h => Bool.noConfusion h, fun _ => rfl⟩

theorem hostServe_getc {s : State} (c : Byte) (h : s.run = .trapPending 0x20) :
    hostServe c s = .next ((s.inputChar c).setRun .running) := by
  obtain ⟨-, -, -, -, hrun, -⟩ := s.inputChar_spec c
  rw [← hostResume_pending (hrun.trans h)]
  simp [hostServe, h, Service.ofVector]

theorem hostServe_in {s : State} (c : Byte) (h : s.run = .trapPending 0x23) :
    hostServe c s = .next (((s.emit [.prompt, .console c]).inputChar c).setRun .running) := by
  obtain ⟨-, -, -, -, hrun, -⟩ := (s.emit [.prompt, .console c]).inputChar_spec c
  rw [← hostResume_pending (hrun.trans h)]
  simp [hostServe, h, Service.ofVector]

theorem hostServe_out {s : State} (c : Byte) (h : s.run = .trapPending 0x21) :
    hostServe c s = .next ((s.emit (putsBytes (s.getReg 0))).setRun .running) := by
  rw [← hostResume_pending (s := s.emit _) h]
  simp [hostServe, h, Service.ofVector]

theorem hostServe_halt {s : State} (c : Byte) (h : s.run = .trapPending 0x25) :
    hostServe c s = .next (((s.emit [.haltNotice]).setRun .halted).signal .halted) := by
  rw [← hostHalt_pending (s := s.emit _) h]
  simp [hostServe, h, Service.ofVector]

theorem hostServe_undefined {s : State} {v : Byte} (c : Byte) (h : s.run = .trapPending v)
    (hv : v.toNat < 0x20 ∨ 0x25 < v.toNat) :
    hostServe c s = .next ((s.setRun .aborted).signal (.fatalTrapVector v)) := by
  rw [← hostAbort_pending h]
  simp [hostServe, h, (Service.ofVector_undefined_iff v).2 hv]

/-- Settles O50: service by service, from what each leaves and the frames of its updates. -/
theorem characterServicesFollowTheContract : Obligations.CharacterServicesFollowTheContract := by
  unfold Obligations.CharacterServicesFollowTheContract
  intro s v c h
  refine ⟨?_, ?_, ?_, fun hv => ?_⟩
  · rintro (rfl | rfl)
    · obtain ⟨hreg, hregs, hpc, hmem, -, hevents, hout, hset, hkeep⟩ := s.inputChar_spec c
      exact ⟨_, hostServe_getc c h, rfl, hreg, hregs, hpc, hmem, hevents, fun _ => hout,
        fun hne => absurd hne (by decide), hset, hkeep⟩
    · obtain ⟨hreg, hregs, hpc, hmem, -, hevents, hout, hset, hkeep⟩ :=
        (s.emit [.prompt, .console c]).inputChar_spec c
      exact ⟨_, hostServe_in c h, rfl, hreg, hregs, hpc, hmem, hevents,
        fun hne => absurd hne (by decide), fun _ => hout, hset, hkeep⟩
  · rintro rfl
    exact ⟨_, hostServe_out c h, rfl, fun _ _ => rfl, rfl, rfl, rfl, rfl, rfl⟩
  · rintro rfl
    exact ⟨_, hostServe_halt c h, rfl, rfl, rfl, fun _ _ => rfl, rfl, rfl, rfl⟩
  · exact ⟨_, hostServe_undefined c h hv, rfl, rfl, rfl, fun _ _ => rfl, rfl, rfl, rfl⟩

/-! ### PUTS and PUTSP -/

theorem hostServe_puts {s : State} (c : Byte) (h : s.run = .trapPending 0x22) :
    hostServe c s = servePuts c putsBytes s := by
  simp [hostServe, h, Service.ofVector]

theorem hostServe_putsp {s : State} (c : Byte) (h : s.run = .trapPending 0x24) :
    hostServe c s = servePuts c putspBytes s := by
  simp [hostServe, h, Service.ofVector]

theorem State.putString_zero {bytes : Word → List HostOutput} {s : State} {a : Word} (count : Nat)
    (hk : s.params.kbdMmio = none) (h : s.mem.read a = 0) :
    s.putString bytes (count + 1) a = (s, true) := by
  rw [State.putString, State.readWord_of_unwired hk, if_pos h, State.afterRead_of_unwired hk]

/-- A string that ends within one round is put out, and the TRAP resumed. -/
theorem servePuts_of_zero {bytes : Word → List HostOutput} {s : State} {v : Byte} {n : Nat} (c : Byte)
    (hrun : s.run = .trapPending v) (hk : s.params.kbdMmio = none) (hn : n < 65536)
    (hne : ∀ k, k < n → s.mem.read (s.getReg 0 + BitVec.ofNat 16 k) ≠ 0)
    (hz : s.mem.read (s.getReg 0 + BitVec.ofNat 16 n) = 0) :
    servePuts c bytes s = .next ((s.setRun .running).emit
      ((List.range n).flatMap fun k => bytes (s.mem.read (s.getReg 0 + BitVec.ofNat 16 k)))) := by
  obtain ⟨m, hm⟩ : ∃ m, 65536 = n + (m + 1) := ⟨65535 - n, by omega⟩
  have hloop := State.putString_nonzero bytes n (m + 1) (s.getReg 0) s hk hne
  rw [State.putString_zero (s := s.emit _) m hk hz] at hloop
  rw [servePuts, hm, hloop]
  exact hostResume_pending (s := s.emit _) hrun

/-- A string with no zero word is put out once round memory, and the service goes on. -/
theorem servePuts_of_nonzero {bytes : Word → List HostOutput} {s : State} (c : Byte)
    (hk : s.params.kbdMmio = none) (hne : ∀ a : Word, s.mem.read a ≠ 0) :
    ∃ os, servePuts c bytes s = .next ((s.emit os).stillServing c) := by
  obtain ⟨os, hloop⟩ : ∃ os, s.putString bytes 65536 (s.getReg 0) = (s.emit os, false) :=
    ⟨_, State.putString_nonzero bytes 65536 0 (s.getReg 0) s hk fun k _ => hne _⟩
  refine ⟨os, ?_⟩
  rw [servePuts, hloop]
  rfl

theorem hostServe_of_nonzero {s : State} {v : Byte} (c : Byte) (hrun : s.run = .trapPending v)
    (hv : v = 0x22 ∨ v = 0x24) (hk : s.params.kbdMmio = none) (hne : ∀ a : Word, s.mem.read a ≠ 0) :
    ∃ os, hostServe c s = .next ((s.emit os).stillServing c) := by
  rcases hv with rfl | rfl
  · rw [hostServe_puts c hrun]
    exact servePuts_of_nonzero c hk hne
  · rw [hostServe_putsp c hrun]
    exact servePuts_of_nonzero c hk hne

theorem putspBytes_eq (w : Word) :
    putspBytes w = [.console (w.setWidth 8)] ++
      if w.toNat < 256 then [] else [.console (w.extractLsb' 8 8)] := by
  have hhigh : w.extractLsb' 8 8 = 0 ↔ w.toNat < 256 := by
    rw [← BitVec.toNat_inj, BitVec.extractLsb'_toNat, Nat.shiftRight_eq_div_pow]
    have := w.isLt
    show w.toNat / 2 ^ 8 % 2 ^ 8 = 0 ↔ _
    omega
  unfold putspBytes
  by_cases h : w.toNat < 256
  · rw [if_pos (hhigh.2 h), if_pos h]; rfl
  · rw [if_neg (mt hhigh.1 h), if_neg h]; rfl

/-- Settles O51. -/
theorem stringServicesOutputUpToTheZeroWord : Obligations.StringServicesOutputUpToTheZeroWord := by
  unfold Obligations.StringServicesOutputUpToTheZeroWord
  intro s c n hk hn hne hz
  refine ⟨fun hrun => ?_, fun hrun => ?_⟩
  · rw [hostAct, hostServe_puts c hrun, servePuts_of_zero c hrun hk hn hne hz, List.map_eq_flatMap]
    rfl
  · rw [hostAct, hostServe_putsp c hrun, servePuts_of_zero c hrun hk hn hne hz]
    simp only [putspBytes_eq]

/-- Held STEP requests do not count among the due actions. -/
theorem State.due_of_held_append {s u : State} {v : Byte} {rest : List HostInput}
    (hrun : u.run = .trapPending v) (hinputs : u.inputs = s.held ++ rest) :
    u.due = rest.dropWhile (· == .step) := by
  have hheld : ∀ i ∈ s.held, (i == HostInput.step) = true := fun i hi => by simp [State.held_step s hi]
  rw [State.due, hrun, hinputs]
  exact List.dropWhile_append_of_pos hheld

/-- Settles O56: one round changes the console only; the service, which is no STEP, is due again unless a RESET
is due behind it. -/
theorem stringWithoutZeroWordNeverEnds : Obligations.StringWithoutZeroWordNeverEnds := by
  unfold Obligations.StringWithoutZeroWordNeverEnds
  intro s v c rest hrun hv hk hne hdue
  obtain ⟨os, hserve⟩ := hostServe_of_nonzero (s := s.setInputs (s.held ++ rest)) c hrun hv hk hne
  have hdue' : ((s.setInputs (s.held ++ rest)).emit os).due = rest.dropWhile (· == .step) :=
    State.due_of_held_append hrun rfl
  refine ⟨_, (step_due hdue).trans hserve, ?_⟩
  rcases ((s.setInputs (s.held ++ rest)).emit os).stillServing_cases c with ⟨hreset, e⟩ | ⟨hno, e⟩
  · rw [e]
    rw [hdue'] at hreset
    exact ⟨hrun, fun _ _ => rfl, rfl, rfl, rfl, rfl, rfl, fun h => absurd hreset h, fun _ => hdue'⟩
  · rw [e]
    rw [hdue'] at hno
    exact ⟨hrun, fun _ _ => rfl, rfl, rfl, rfl, rfl, rfl,
      fun _ => (State.due_of_head _ rfl (by simp)).2, fun h => absurd h hno⟩

/-! ### The ports -/

theorem State.readCell_of_lt (s : State) {k : Nat} (h : k < 8) : s.readCell k = some (s.getReg ⟨k, h⟩) :=
  dif_pos h

theorem State.readCell_of_ge (s : State) {k : Nat} (h : 10 ≤ k) : s.readCell k = none := by
  rw [State.readCell, dif_neg (by omega), if_neg (by omega), if_neg (by omega)]

theorem State.writeCell_of_ge (s : State) (v : Word) {k : Nat} (h : 10 ≤ k) : s.writeCell k v = none := by
  rw [State.writeCell, dif_neg (by omega), if_neg (by omega), if_neg (by omega)]

theorem cell_cases {k : Nat} (h : k < 10) : (∃ r : Reg, k = r.val) ∨ k = 8 ∨ k = 9 := by
  by_cases h8 : k < 8
  · exact .inl ⟨⟨k, h8⟩, rfl⟩
  · omega

theorem State.readCell_reg (s : State) (r : Reg) : s.readCell r.val = some (s.getReg r) :=
  s.readCell_of_lt r.isLt

/-- Two states that agree on registers, PC and COND but for one cell. -/
theorem State.readCell_congr {s t : State} {j : Nat} (hreg : ∀ r : Reg, j = r.val → t.getReg r = s.getReg r)
    (hpc : j = 8 → t.pc = s.pc) (hcond : j = 9 → t.cond = s.cond) : t.readCell j = s.readCell j := by
  by_cases hj : j < 10
  · rcases cell_cases hj with ⟨r, rfl⟩ | rfl | rfl
    · rw [s.readCell_reg, t.readCell_reg, hreg r rfl]
    · exact congrArg some (hpc rfl)
    · exact congrArg some (hcond rfl)
  · rw [s.readCell_of_ge (by omega), t.readCell_of_ge (by omega)]

/-- A write to one of the ten cells reads back and changes no other cell. -/
theorem State.writeCell_spec (s : State) {k : Nat} (v : Word) (hk : k < 10) :
    ∃ t, s.writeCell k v = some t ∧ t.readCell k = some v ∧ (∀ j, j ≠ k → t.readCell j = s.readCell j) ∧
      t.mem = s.mem ∧ SameControl s t := by
  rcases cell_cases hk with ⟨r, rfl⟩ | rfl | rfl
  · refine ⟨s.setReg r v, dif_pos r.isLt, ?_, fun j hj => ?_, rfl, rfl, rfl, rfl, rfl, rfl, rfl⟩
    · rw [State.readCell_reg, s.getReg_setReg_self]
    · exact State.readCell_congr (fun q hq => s.getReg_setReg_of_ne v fun e => hj (hq.trans (congrArg Fin.val e)))
        (fun _ => rfl) fun _ => rfl
  · exact ⟨s.setPc v, rfl, rfl,
      fun j hj => State.readCell_congr (fun _ _ => rfl) (fun e => absurd e hj) fun _ => rfl,
      rfl, rfl, rfl, rfl, rfl, rfl, rfl⟩
  · exact ⟨s.setCond v, rfl, rfl,
      fun j hj => State.readCell_congr (fun _ _ => rfl) (fun _ => rfl) fun e => absurd e hj,
      rfl, rfl, rfl, rfl, rfl, rfl, rfl⟩

theorem hostAct_writeReg {s t : State} {k : Nat} {v : Word} (h : s.writeCell k v = some t) :
    hostAct (.writeReg k v) s = .next t := by
  rw [hostAct, hostWriteReg, h]

theorem hostAct_readReg {s : State} {k : Nat} {v : Word} (h : s.readCell k = some v) :
    hostAct (.readReg k) s = .next (s.emit [.regValue k v]) := by
  rw [hostAct, hostReadReg, h]

theorem hostAct_reg_refused {k : Nat} (h : 10 ≤ k) (s : State) (v : Word) :
    hostAct (.writeReg k v) s = .refused (.registerIndex k) ∧
      hostAct (.readReg k) s = .refused (.registerIndex k) := by
  rw [hostAct, hostAct, hostWriteReg, hostReadReg, s.writeCell_of_ge v h, s.readCell_of_ge h]
  exact ⟨rfl, rfl⟩

theorem portAddress_eq (a : Nat) : portAddress a = BitVec.ofNat 16 (a % 65536) := by
  apply BitVec.eq_of_toNat_eq
  simp [portAddress]

theorem hostAct_readMem {s : State} (hk : s.params.kbdMmio = none) (a : Nat) :
    hostAct (.readMem a) s = .next (s.emit [.memValue a (s.mem.read (BitVec.ofNat 16 (a % 65536)))]) := by
  rw [hostAct, hostReadMem, State.afterRead_of_unwired hk, State.readWord_of_unwired hk, portAddress_eq]

theorem hostAct_writeMem {s : State} (hk : s.params.kbdMmio = none) (a : Nat) (v : Word) :
    hostAct (.writeMem a v) s = .next (s.setMem (s.mem.write (BitVec.ofNat 16 (a % 65536)) v)) := by
  rw [hostAct, hostWriteMem, portAddress_eq, s.writeWord_plain v (s.isKeyboard_of_none hk _)]

/-- Settles O54. -/
theorem portsReachEveryCellAndWord : Obligations.PortsReachEveryCellAndWord := by
  unfold Obligations.PortsReachEveryCellAndWord
  refine ⟨fun s k v => ⟨fun hk => ?_, fun hk => hostAct_reg_refused hk s v⟩,
    fun s => ⟨s.readCell_reg, rfl, rfl⟩, fun s k hk => ?_, fun s a hk => hostAct_readMem hk a,
    fun s a v hk => ⟨_, hostAct_writeMem hk a v, s.mem.read_write_self _ v, s.sameMemoryBut_setMem_write _ v,
      fun _ _ => rfl, rfl, rfl, s.sameControl_setMem _⟩⟩
  · obtain ⟨t, hwrite, hspec⟩ := s.writeCell_spec v hk
    exact ⟨t, hostAct_writeReg hwrite, hspec⟩
  · rcases cell_cases hk with ⟨r, rfl⟩ | rfl | rfl
    · exact ⟨_, s.readCell_reg r, hostAct_readReg (s.readCell_reg r)⟩
    · exact ⟨s.pc, rfl, rfl⟩
    · exact ⟨s.cond, rfl, rfl⟩

/-! ### The loader -/

theorem ofNat_toNat_of_lt {n : Nat} (h : n < 65536) : (BitVec.ofNat 16 n).toNat = n := by
  rw [BitVec.toNat_ofNat, Nat.mod_eq_of_lt h]

/-- With no keyboard pair the loader's writes put `ws` from address `n` up and leave the other words. -/
theorem State.writeWords_spec (ws : List Word) (n : Nat) (s : State) (hk : s.params.kbdMmio = none)
    (hfit : n + ws.length ≤ 65536) :
    ∃ m, s.writeWords (BitVec.ofNat 16 n) ws = .next (s.setMem m) ∧
      (∀ (i : Nat) (h : i < ws.length), m.read (BitVec.ofNat 16 (n + i)) = ws[i]) ∧
      (∀ a : Word, a.toNat < n ∨ n + ws.length ≤ a.toNat → m.read a = s.mem.read a) := by
  induction ws generalizing n s with
  | nil => exact ⟨s.mem, rfl, fun i h => absurd h (Nat.not_lt_zero i), fun _ _ => rfl⟩
  | cons w ws ih =>
    have hlen : n + 1 + ws.length ≤ 65536 := by rw [List.length_cons] at hfit; omega
    have hn : (BitVec.ofNat 16 n).toNat = n := ofNat_toNat_of_lt (by omega)
    obtain ⟨m, hwrite, hwords, hothers⟩ :=
      ih (n + 1) (s.setMem (s.mem.write (BitVec.ofNat 16 n) w)) hk hlen
    refine ⟨m, ?_, fun i hi => ?_, fun a ha => ?_⟩
    · rw [State.writeWords, s.writeWord_plain w (s.isKeyboard_of_none hk _)]
      rw [BitVec.ofNat_add] at hwrite
      exact hwrite
    · cases i with
      | zero => exact (hothers _ (.inl (by rw [Nat.add_zero, hn]; omega))).trans (Memory.read_write_self _ _ _)
      | succ i =>
        have h := hwords i (by simpa using hi)
        rw [show n + (i + 1) = n + 1 + i by omega]
        exact h
    · rw [List.length_cons] at ha
      rw [hothers a (by omega)]
      refine Memory.read_write_of_ne _ _ fun e => ?_
      rw [e, hn] at ha
      omega

/-- Settles O52: an image that parses and fits is written word by word. -/
theorem loaderPlacesTheImage : Obligations.LoaderPlacesTheImage := by
  unfold Obligations.LoaderPlacesTheImage
  intro s image origin ws hk hs hparse hfit
  obtain ⟨m, hwrite, hwords, hothers⟩ := s.writeWords_spec ws origin.toNat hk hfit
  rw [BitVec.ofNat_toNat, BitVec.setWidth_eq] at hwrite
  refine ⟨s.setMem m, ?_, hwords, hothers, rfl⟩
  rw [hostAct, (hostLoad_eq image s).1 hs, State.loadImage, hparse]
  exact (if_pos hfit).trans hwrite

theorem bigEndianWords_pairs (payload : List (Byte × Byte)) :
    bigEndianWords (payload.flatMap fun b => [b.1, b.2]) = some (payload.map fun b => b.1 ++ b.2) := by
  induction payload with
  | nil => rfl
  | cons b rest ih => exact congrArg (Option.map fun ws => (b.1 ++ b.2) :: ws) ih

theorem bigEndianWords_of_odd {image : List Byte} (h : image.length % 2 = 1) :
    bigEndianWords image = none := by
  induction image using bigEndianWords.induct with
  | case1 => cases h
  | case2 b => rfl
  | case3 hi lo rest ih =>
    have hrest : rest.length % 2 = 1 := by simp only [List.length_cons] at h; omega
    rw [bigEndianWords, ih hrest]
    rfl

theorem parseImage_of_bad_length {image : List Byte} (h : image.length % 2 = 1 ∨ image.length < 2) :
    parseImage image = none := by
  rcases h with hodd | hshort
  · rw [parseImage, bigEndianWords_of_odd hodd]
  · match image, hshort with
    | [], _ => rfl
    | [_], _ => rfl

/-- Settles O53: a bad length does not parse, and an image that does not fit is found before any write. -/
theorem badImageWritesNothing : Obligations.BadImageWritesNothing := by
  unfold Obligations.BadImageWritesNothing
  refine ⟨fun hi lo payload => ?_, fun s image hs hbad => ?_⟩
  · rw [parseImage, bigEndianWords, bigEndianWords_pairs]
    rfl
  · rw [hostAct, (hostLoad_eq image s).1 hs, State.loadImage]
    rcases or_assoc.2 hbad with hlen | ⟨origin, ws, hparse, hlong⟩
    · rw [parseImage_of_bad_length hlen]
    · rw [hparse]
      exact if_neg (by omega)

end Sys2Proof.Machine
